-- ==== Sys2Proof/Word.lean ====
section
/-! DEFINITION. The word: the only data type of the engine (00_scope.md R9, R13). -/

namespace Sys2Proof

/-- A word: a signed integer (R9; R46: "a model must represent a cell as an integer, not as a byte vector").
Its width `W` is a parameter that may be infinite (R6), so a word is an `Int`, and its lying in
`[INT_MIN, INT_MAX]` is `Config.inRange`. The data types name what they hold a word; the operations that compare and
compute take it as the `Int` it is ("All pseudocode arithmetic ... is over the mathematical integers, exact, with no
wrap-around", R9). -/
abbrev Word := Int

end Sys2Proof
end

