-- ==== Sys2Proof/Config.lean ====
section
/-! DEFINITION. The implementation parameters of 00_scope.md R6, as one record; what they mean for a word or a
length is computed in Sys2Proof/Machine/WordRange.lean. The spec leaves no value free (93_implementation_defined.md:
"No behaviour in this spec is treated as `any value`"), so there is no free value here. -/

namespace Sys2Proof

/-- The unknown-mode policy of R6 and R66: what a mode digit 2 to 9 does on a read operand. -/
inductive UnknownMode where
  /-- `raise Fault(ILLEGAL_MODE)`: the normative value (R66, D4). -/
  | fault
  /-- The source's reference behaviour, "treated as mode 0", which R66 lets a model carry as a switch. -/
  | positional
  deriving DecidableEq, Repr

/-- The configuration record of R6. The step budget of R6 has the one admissible value "none" and so no field. -/
structure Config where
  /-- `W`; `none` is `inf`. -/
  width       : Option Nat
  /-- `MEM_CAP`; `none` is unbounded, for `W = inf` only. -/
  memCap      : Option Nat
  /-- `IN_DEPTH`; `none` is `inf`. -/
  inDepth     : Option Nat
  /-- `OUT_DEPTH`; `none` is `inf`. -/
  outDepth    : Option Nat
  /-- The unknown-mode policy. -/
  unknownMode : UnknownMode
  deriving DecidableEq, Repr

/-- The values R6 takes for the hardware. DESIGN CHOICE (assumption 3): R6 leaves `MEM_CAP` OPEN, and this record,
which only `State.reset` uses, takes the largest admissible value, `INT_MAX`. -/
def Config.hardware : Config where
  width       := some 64
  memCap      := some 9223372036854775807
  inDepth     := none
  outDepth    := none
  unknownMode := .fault

/-- The document-exact instance of R6: no overflow fault and no FIFO-full condition exists in it. -/
def Config.documentExact : Config where
  width       := none
  memCap      := none
  inDepth     := none
  outDepth    := none
  unknownMode := .fault

end Sys2Proof
end

