-- ==== Sys2Proof/Machine/WordRange.lean ====
section
/-! DEFINITION. What the parameters of R6 say of a word, a queue and an image: `INT_MIN`, `INT_MAX`, the word range,
the FIFO capacities, `MEM_CAP`, and which configurations are admissible. -/

namespace Sys2Proof

/-- `INT_MAX = 2^(W-1) - 1` (R6) for a finite width `n`. -/
def intMax (n : Nat) : Int := ((2 ^ (n - 1) : Nat) : Int) - 1

/-- `INT_MIN = -2^(W-1)` (R6) for a finite width `n`. -/
def intMin (n : Nat) : Int := -((2 ^ (n - 1) : Nat) : Int)

/-- The word lies in `[INT_MIN, INT_MAX]`; for `W = inf` every integer does (R6, R9). -/
def Config.inRange (c : Config) (w : Int) : Bool :=
  match c.width with
  | none   => true
  | some n => decide (intMin n ≤ w) && decide (w ≤ intMax n)

/-- A count that a bound allows; `none` is the bound `inf`. -/
def withinBound (bound : Option Nat) (n : Nat) : Bool :=
  match bound with
  | none   => true
  | some b => decide (n ≤ b)

/-- `len <= MEM_CAP` (R150). -/
def Config.memFits (c : Config) (len : Nat) : Bool := withinBound c.memCap len

/-- `len <= IN_DEPTH` (R33 item 7, R152). -/
def Config.inFits (c : Config) (len : Nat) : Bool := withinBound c.inDepth len

/-- `len <= OUT_DEPTH` (R33 item 7, R160). -/
def Config.outFits (c : Config) (len : Nat) : Bool := withinBound c.outDepth len

/-- A FIFO capacity is a natural number `>= 1`, or `inf` (R6). -/
def depthAdmissible : Option Nat → Bool
  | none   => true
  | some d => decide (1 ≤ d)

/-- `W >= 8` or `inf`; for a finite `W`, `MEM_CAP <= INT_MAX` (R6). -/
def Config.widthAdmissible (c : Config) : Bool :=
  match c.width, c.memCap with
  | none,   _        => true
  | some n, some cap => decide (8 ≤ n) && decide ((cap : Int) ≤ intMax n)
  | some _, none     => false

/-- The admissible configurations of R6. Both values of the unknown-mode policy are let in: R66 allows the lenient
one as a switch, and `.fault` is the normative one (assumption 12). -/
def Config.admissible (c : Config) : Bool :=
  c.widthAdmissible && depthAdmissible c.inDepth && depthAdmissible c.outDepth

end Sys2Proof
end

