-- ==== Sys2Proof/Syntax.lean ====
section
/-! DEFINITION. The instructions as syntax: the nine operations, the addressing modes, and `Instr` with one constructor
per row of spec/opcode_table.json (30_encoding.md R64, R65, R68). -/

namespace Sys2Proof

/-- The nine operations of R2 and R68, as `Decode` names them (R74). -/
inductive Opcode where
  | add | mul | input | output | jumpIfTrue | jumpIfFalse | lessThan | equals | halt
  deriving DecidableEq, Repr

/-- The addressing mode a mode digit selects (R65). A digit 2 to 9 is decoded and kept: its legality is checked where
the mode is used (R74: "`Decode` does not look at whether `m1` and `m2` are legal modes"). -/
inductive Mode where
  /-- Digit 0: "value is memory[operand]". -/
  | positional
  /-- Digit 1: "value is the operand itself". -/
  | immediate
  /-- A digit 2 to 9, which names no mode. -/
  | unknown (digit : Nat)
  deriving DecidableEq, Repr

/-- One instruction with its raw parameters (R11, R64). A read operand carries its mode; a write target carries none
(R67), nor does a parameter the format does not have, so the digits R63 and R67 call ignored are not here. -/
inductive Instr where
  /-- Opcode 1, format F3 (R80). -/
  | add (m1 m2 : Mode) (a b dst : Word)
  /-- Opcode 2, format F3 (R81). -/
  | mul (m1 m2 : Mode) (a b dst : Word)
  /-- Opcode 3, format F1W (R90). -/
  | input (dst : Word)
  /-- Opcode 4, format F1R (R92). -/
  | output (m1 : Mode) (a : Word)
  /-- Opcode 5, format F2 (R100). -/
  | jumpIfTrue (m1 m2 : Mode) (cond target : Word)
  /-- Opcode 6, format F2 (R101). -/
  | jumpIfFalse (m1 m2 : Mode) (cond target : Word)
  /-- Opcode 7, format F3 (R110). -/
  | lessThan (m1 m2 : Mode) (a b dst : Word)
  /-- Opcode 8, format F3 (R111). -/
  | equals (m1 m2 : Mode) (a b dst : Word)
  /-- Opcode 99, format F0 (R120). -/
  | halt
  /-- The row `(illegal)`: an instruction word that selects no operation (R121), with that word. -/
  | illegal (word : Word)
  deriving DecidableEq, Repr

end Sys2Proof
end

