-- ==== Sys2Proof/WellFormed.lean ====
section
/-! DEFINITION. Which instructions some cells of a memory can hold: every raw parameter is a word of the configuration's
width, every unknown mode digit is one of 2 to 9, and an `illegal` word selects no operation. -/

namespace Sys2Proof

/-- A mode some decimal digit selects: an unknown digit is 2 to 9 (30_encoding.md R66). -/
def Mode.wellFormed : Mode → Bool
  | .positional => true
  | .immediate  => true
  | .unknown d  => decide (2 ≤ d) && decide (d ≤ 9)

/-- The words of R69: every negative word, and every word whose low two decimal digits are 0 or 9 to 98. -/
def isIllegalWord (w : Int) : Bool :=
  decide (w < 0) || decide (w.toNat % 100 = 0) || (decide (9 ≤ w.toNat % 100) && decide (w.toNat % 100 ≤ 98))

/-- The instruction can be the decoding of cells that hold words of the configuration `c`. -/
def Instr.wellFormed (c : Config) : Instr → Bool
  | .add m1 m2 a b dst         => m1.wellFormed && m2.wellFormed && c.inRange a && c.inRange b && c.inRange dst
  | .mul m1 m2 a b dst         => m1.wellFormed && m2.wellFormed && c.inRange a && c.inRange b && c.inRange dst
  | .input dst                 => c.inRange dst
  | .output m1 a               => m1.wellFormed && c.inRange a
  | .jumpIfTrue m1 m2 cnd tgt  => m1.wellFormed && m2.wellFormed && c.inRange cnd && c.inRange tgt
  | .jumpIfFalse m1 m2 cnd tgt => m1.wellFormed && m2.wellFormed && c.inRange cnd && c.inRange tgt
  | .lessThan m1 m2 a b dst    => m1.wellFormed && m2.wellFormed && c.inRange a && c.inRange b && c.inRange dst
  | .equals m1 m2 a b dst      => m1.wellFormed && m2.wellFormed && c.inRange a && c.inRange b && c.inRange dst
  | .halt                      => true
  | .illegal w                 => isIllegalWord w && c.inRange w

end Sys2Proof
end

