-- ==== Sys2Proof/Decode.lean ====
section
/-! DEFINITION. The decoder (30_encoding.md R61 to R74), total on any cells, and the encoder that emits canonical words
(R71, R73); then the reading of a numbered table word that the host asks about. -/

namespace Sys2Proof

/-- Digit `k` of a non-negative word: the coefficient of `10^k` (00_scope.md R8). -/
def decDigit (w k : Nat) : Nat := w / 10 ^ k % 10

/-- The opcode map of R68: opcode value and operation, one row per operation. -/
def opcodeMap : List (Nat × Opcode) :=
  [(1, .add), (2, .mul), (3, .input), (4, .output), (5, .jumpIfTrue), (6, .jumpIfFalse), (7, .lessThan), (8, .equals),
   (99, .halt)]

/-- The operation an opcode value selects; `none` for every value R69 calls illegal. -/
def Opcode.ofValue (n : Nat) : Option Opcode := opcodeMap.lookup n

/-- The opcode value of an operation (R68). -/
def Opcode.value : Opcode → Nat
  | .add => 1 | .mul => 2 | .input => 3 | .output => 4 | .jumpIfTrue => 5 | .jumpIfFalse => 6 | .lessThan => 7
  | .equals => 8 | .halt => 99

/-- `nparams` of R74: how many parameter cells follow the instruction word. -/
def Opcode.nparams : Opcode → Nat
  | .add => 3 | .mul => 3 | .input => 1 | .output => 1 | .jumpIfTrue => 2 | .jumpIfFalse => 2 | .lessThan => 3
  | .equals => 3 | .halt => 0

/-- `Decode(w)` of R74: the operation and the two mode digits, or `none` where R74 raises `Fault(ILLEGAL_OPCODE)`
(a negative word, R62; an opcode that is not one of the nine, R69). Both digits are extracted for every operation, and
neither is validated. -/
def decodeWord (w : Int) : Option (Opcode × Nat × Nat) :=
  if w < 0 then none
  else
    match Opcode.ofValue (w.toNat % 100) with
    | none    => none
    | some op => some (op, decDigit w.toNat 2, decDigit w.toNat 3)

/-- The mode a mode digit selects (R65, R66). -/
def Mode.ofDigit : Nat → Mode
  | 0     => .positional
  | 1     => .immediate
  | d + 2 => .unknown (d + 2)

/-- The mode digit of a mode. -/
def Mode.digit : Mode → Nat
  | .positional => 0
  | .immediate  => 1
  | .unknown d  => d

/-- The instruction of an operation, its two mode digits and its raw parameters, by the formats of R64: a digit the
format does not use is dropped (R63, R67). `none` when the parameters are not as many as the format has. -/
def assemble (op : Opcode) (m1 m2 : Mode) (params : List Word) : Option Instr :=
  match op, params with
  | .add,         [a, b, dst]      => some (.add m1 m2 a b dst)
  | .mul,         [a, b, dst]      => some (.mul m1 m2 a b dst)
  | .input,       [dst]            => some (.input dst)
  | .output,      [a]              => some (.output m1 a)
  | .jumpIfTrue,  [cond, target]   => some (.jumpIfTrue m1 m2 cond target)
  | .jumpIfFalse, [cond, target]   => some (.jumpIfFalse m1 m2 cond target)
  | .lessThan,    [a, b, dst]      => some (.lessThan m1 m2 a b dst)
  | .equals,      [a, b, dst]      => some (.equals m1 m2 a b dst)
  | .halt,        []               => some .halt
  | _,            _                => none

/-- Why a list of cells holds no whole instruction. Where the cells are those of memory, the fetch of the missing cell
is what raises `Fault(FETCH_OOB)` (20_memory.md R43). -/
inductive DecodeError where
  /-- There is no cell to take the instruction word from. -/
  | noWord
  /-- Parameter `n` (counted from 1) of the instruction has no cell. -/
  | missingParameter (n : Nat)
  deriving DecidableEq, Repr

/-- How many parameter cells the instruction of a word has: `nparams` of its opcode, none for an illegal word
(20_memory.md R57). -/
def paramCount (w : Int) : Nat :=
  match decodeWord w with
  | none            => 0
  | some (op, _, _) => op.nparams

/-- The instruction at the head of a list of cells, with the cells after it. Exactly `1 + paramCount w` cells are
consumed (R60, R57). A word that selects no operation decodes to `illegal` (R121). -/
def decode : List Word → Except DecodeError (Instr × List Word)
  | []        => .error .noWord
  | w :: rest =>
    match decodeWord w with
    | none              => .ok (.illegal w, rest)
    | some (op, d1, d2) =>
      match assemble op (.ofDigit d1) (.ofDigit d2) (rest.take op.nparams) with
      | some i => .ok (i, rest.drop op.nparams)
      | none   => .error (.missingParameter (rest.length + 1))

/-- The canonical instruction word of R73: `opcode + 100*m1 + 1000*m2`. -/
def canonicalWord (op : Opcode) (m1 m2 : Mode) : Int :=
  ((op.value + 100 * m1.digit + 1000 * m2.digit : Nat) : Int)

/-- The cells of an instruction as R71 emits them: the canonical word, every unused digit 0, and the raw parameters. -/
def encode : Instr → List Word
  | .add m1 m2 a b dst         => [canonicalWord .add m1 m2, a, b, dst]
  | .mul m1 m2 a b dst         => [canonicalWord .mul m1 m2, a, b, dst]
  | .input dst                 => [canonicalWord .input .positional .positional, dst]
  | .output m1 a               => [canonicalWord .output m1 .positional, a]
  | .jumpIfTrue m1 m2 cnd tgt  => [canonicalWord .jumpIfTrue m1 m2, cnd, tgt]
  | .jumpIfFalse m1 m2 cnd tgt => [canonicalWord .jumpIfFalse m1 m2, cnd, tgt]
  | .lessThan m1 m2 a b dst    => [canonicalWord .lessThan m1 m2, a, b, dst]
  | .equals m1 m2 a b dst      => [canonicalWord .equals m1 m2, a, b, dst]
  | .halt                      => [canonicalWord .halt .positional .positional]
  | .illegal w                 => [w]

/-- How many cells the instruction occupies (R60). -/
def Instr.length : Instr → Nat
  | .add _ _ _ _ _ => 4 | .mul _ _ _ _ _ => 4 | .input _ => 2 | .output _ _ => 2 | .jumpIfTrue _ _ _ _ => 3
  | .jumpIfFalse _ _ _ _ => 3 | .lessThan _ _ _ _ _ => 4 | .equals _ _ _ _ _ => 4 | .halt => 1 | .illegal _ => 1

/-- A 64-bit pattern read as a signed two's-complement word (D1, `W = 64`). -/
def signed64 (n : Nat) : Int :=
  if n % 2 ^ 64 < 2 ^ 63 then ((n % 2 ^ 64 : Nat) : Int) else ((n % 2 ^ 64 : Nat) : Int) - ((2 ^ 64 : Nat) : Int)

/-- The cells of a numbered table word. DESIGN CHOICE (assumption 10): the spec gives a word no bit layout (R46), so for
the host's question cell `k` of the instruction is bits `64k+63 .. 64k`, two's complement, and the longest
instruction's four cells are laid out. -/
def tableCells (w : Nat) : List Word :=
  [signed64 w, signed64 (w / 2 ^ 64), signed64 (w / 2 ^ 128), signed64 (w / 2 ^ 192)]

/-- The instruction the decoder reads from an instruction whose bits are `w`. `w` has no bit at or above `nbits`, and
those bits of the instruction are 0, so `nbits` itself is not needed. -/
def decodeTableWord (_nbits w : Nat) : Option Instr :=
  match decode (tableCells w) with
  | .ok (i, _) => some i
  | .error _   => none

end Sys2Proof
end

