-- ==== Sys2Proof/Machine/State.lean ====
section
/-! DEFINITION. The state of the machine as plain data: the engine's eight pieces of state (10_state.md R20), the
configuration it was built with (00_scope.md R6), and the host agent's pending commands and the answers it got
(46_host_interface.md); the reasons a step can stop; and the state after reset. -/

namespace Sys2Proof.Machine

/-- `state`, the execution state (R24). -/
inductive RunState where
  /-- The next step may execute the instruction at `pc`; also the state of an engine loaded and not yet run. -/
  | runnable
  /-- Opcode 99 was executed. Terminal. -/
  | halted
  /-- An `input` instruction found `inq` empty; resumable. The source's "Suspended-on-Input". -/
  | suspended
  /-- An instruction was abandoned by a fault; `cause` says which. Terminal. -/
  | faulted
  deriving DecidableEq, Repr

/-- `cause` (R25): the nine cause codes. -/
inductive Cause where
  | none | illegalOpcode | fetchOob | illegalMode | readOob | writeOob | overflow | badJumpTarget | outputFull
  deriving DecidableEq, Repr

/-- One cell of memory that does not hold what an unlisted cell reads as: its index and its word. -/
abbrev MemCell := Nat × Word

/-- `mem` in one canonical form (`Memory.wf`): indices strictly rising, all below `MEMLEN`, no listed word equal to
what an unlisted cell reads as (assumption 1). -/
abbrev Memory := List MemCell

/-- The commands the host can give (46_host_interface.md section 2 to 5). `construct_from_text` is no command of the
hardware (R151). -/
inductive HostCommand where
  /-- `construct(image)` (R150). -/
  | construct (image : List Word)
  /-- `reset_memory(image)` (R157). -/
  | resetMemory (image : List Word)
  /-- `set_inputs(values)` (R152). -/
  | setInputs (values : List Word)
  /-- `add_input(value)` (R153). -/
  | addInput (value : Word)
  /-- `run()` (R154). -/
  | run
  /-- `resume()` (R155). -/
  | resume
  /-- `outputs()` (R156). -/
  | outputs
  /-- `is_halted()` (R158). -/
  | isHalted
  /-- `is_suspended_on_input()` (R158). -/
  | isSuspendedOnInput
  /-- `is_faulted()` (R158). -/
  | isFaulted
  /-- `fault_cause()` (R158). -/
  | faultCause
  /-- `read_memory()` (R159). -/
  | readMemory
  /-- `read_pc()` (R159). -/
  | readPc
  deriving DecidableEq, Repr

/-- What the host gets back from a command. -/
inductive HostReply where
  /-- The command was accepted and returns nothing. -/
  | done
  /-- The command was refused: it did not happen (R163). -/
  | refused
  /-- The sequence of words `outputs` or `read_memory` returns. -/
  | words (ws : List Word)
  /-- The answer of a status predicate. -/
  | flag (b : Bool)
  /-- The answer of `fault_cause`. -/
  | cause (c : Cause)
  /-- The answer of `read_pc`. -/
  | index (n : Nat)
  deriving DecidableEq, Repr

/-- Everything a state of the machine holds. The first eight fields are R20's, the rest the model's own. -/
structure State where
  /-- `mem` (R20, R28, R40). -/
  mem         : Memory
  /-- `MEMLEN` (R20, R41). -/
  memLen      : Nat
  /-- `pc`, the index of the next instruction's word (R22). -/
  pc          : Nat
  /-- `state` (R24). -/
  state       : RunState
  /-- `cause` (R25). -/
  cause       : Cause
  /-- `inq`, oldest first (R30). -/
  inq         : List Word
  /-- `outq`, oldest first (R31). -/
  outq        : List Word
  /-- `busy` (R29). -/
  busy        : Bool
  /-- The configuration of R6, which nothing changes: R6 asks that the model be "stated for every admissible value",
  and a statement about every state is (assumption 3). -/
  cfg         : Config
  /-- The host agent: the commands it will give, the next one first (assumption 5). -/
  hostTodo    : List HostCommand
  /-- The host agent: what it got back, oldest first (assumption 5). -/
  hostReplies : List HostReply
  deriving DecidableEq, Repr

/-- Why a step can find no next state. No instruction raises one of these: a fault of the ENGINE (R172) is a next state
with `state` Faulted. -/
inductive Fault where
  /-- Raised by `step` when the engine is idle and the host has no command left: neither agent has a move, and the
  machine waits for ever (R191: "the only \"wake\" events are the host commands"). Safe: the model stops. -/
  | noMove
  /-- Raised by `step` when `busy = 1` and `state` is not Runnable, where no step is defined (R130). No state that
  meets `State.Inv` is such a state. Safe: the model stops. -/
  | stepUndefined
  deriving DecidableEq, Repr

/-- Why an instruction can have no meaning. -/
inductive Refusal where
  /-- An instruction whose meaning is not written yet, by its mnemonic; only an arm of `exec` may answer it, and in this
  model none does. Safe: the model stops. -/
  | notModelled (mnemonic : String)
  deriving DecidableEq, Repr

/-- The machine right after reset: the reset of this hardware is `construct(image)` (R200), and every field is at the
value R32 gives it. DESIGN CHOICE (assumption 4): the image is the empty one, so no program is invented; the host has
no command pending; the configuration is that of R6. -/
def State.reset : State where
  mem         := []
  memLen      := 0
  pc          := 0
  state       := .runnable
  cause       := .none
  inq         := []
  outq        := []
  busy        := false
  cfg         := Config.hardware
  hostTodo    := []
  hostReplies := []

end Sys2Proof.Machine
end

