-- ==== Sys2Proof/Machine/Ops.lean ====
section
/-! DEFINITION. The named operations over memory and registers: the memory array, the access primitives of
20_memory.md (`Fetch`, `MemRead`, `MemWrite`), the program-counter advance, and the three ways a run stops: `raise
Fault(c)` (60_exceptions.md R172), the suspend (41_io.md R91) and the halt (44_halt_illegal.md R120), with the one
return there is (R176). -/

namespace Sys2Proof.Machine

/-! ### The memory array -/

/-- What an in-range cell that the list does not name holds. Every cell is given a value by the image (R32), so this is
the list's form alone and no power-on value of the hardware (assumption 1). -/
def Memory.unlisted : Int := 0

/-- `M[a]`. -/
def Memory.read : Memory → Nat → Int
  | [],          _ => Memory.unlisted
  | (k, v) :: t, a => if k = a then v else Memory.read t a

/-- `M[a] <- v`, keeping the canonical form. -/
def Memory.write : Memory → Nat → Int → Memory
  | [],          a, v => if v = Memory.unlisted then [] else [(a, v)]
  | (k, x) :: t, a, v =>
    if a < k then (if v = Memory.unlisted then (k, x) :: t else (a, v) :: (k, x) :: t)
    else if a = k then (if v = Memory.unlisted then t else (a, v) :: t)
    else (k, x) :: Memory.write t a v

/-- The canonical form of a memory whose indices lie in `lo .. len-1`. -/
def Memory.wfFrom (lo len : Nat) : Memory → Bool
  | []          => true
  | (k, v) :: t => decide (lo ≤ k) && decide (k < len) && decide (v ≠ Memory.unlisted) && Memory.wfFrom (k + 1) len t

/-- The canonical form of a memory of `len` cells: indices strictly rising and below `len`, no listed word equal to what
an unlisted cell reads as. -/
def Memory.wf (m : Memory) (len : Nat) : Bool := Memory.wfFrom 0 len m

/-- The memory whose cells `n, n+1, ..` are the words of an image (R150). -/
def Memory.ofImageFrom : Nat → List Word → Memory
  | _, []          => []
  | n, v :: image  => if v = Memory.unlisted then Memory.ofImageFrom (n + 1) image
                      else (n, v) :: Memory.ofImageFrom (n + 1) image

/-- The memory an image loads: `M[i] = image[i]` (R32, R150). -/
def Memory.ofImage (image : List Word) : Memory := Memory.ofImageFrom 0 image

/-- The words `M[a] .. M[a+n-1]`. -/
def Memory.slice (m : Memory) (a : Nat) : Nat → List Word
  | 0     => []
  | n + 1 => m.read a :: Memory.slice m (a + 1) n

/-- `M[a] .. M[a+n-1] <- ws`, one cell after the other. -/
def Memory.writeList (m : Memory) (a : Nat) : List Word → Memory
  | []      => m
  | w :: ws => Memory.writeList (m.write a w) (a + 1) ws

/-! ### The three access primitives -/

/-- `M[a]` in a state. -/
def State.cell (s : State) (a : Nat) : Int := s.mem.read a

/-- The address is in range: `0 <= a < MEMLEN` (R9). -/
def State.addressInRange (s : State) (a : Int) : Bool := decide (0 ≤ a) && decide (a < s.memLen)

/-- `Fetch(a)` (R43). -/
def State.fetch (s : State) (a : Int) : Except Cause Int :=
  if s.addressInRange a then .ok (s.cell a.toNat) else .error .fetchOob

/-- `MemRead(a, 1)` (R44). -/
def State.memRead (s : State) (a : Int) : Except Cause Int :=
  if s.addressInRange a then .ok (s.cell a.toNat) else .error .readOob

/-- The range check of `MemWrite` (R45), which `input` makes on its own before it looks at the queue (R90). -/
def State.checkTarget (s : State) (a : Int) : Except Cause Unit :=
  if s.addressInRange a then .ok () else .error .writeOob

/-- `M[a] <- v` for an address already checked. -/
def State.setCell (s : State) (a : Nat) (v : Int) : State := { s with mem := s.mem.write a v }

/-- `MemWrite(a, 1, v)` (R45). -/
def State.memWrite (s : State) (a v : Int) : Except Cause State :=
  match s.checkTarget a with
  | .ok ()   => .ok (s.setCell a.toNat v)
  | .error c => .error c

/-! ### The program counter -/

/-- `pc <- pc + n`: the sequential advance (R23). -/
def State.advance (s : State) (n : Nat) : State := { s with pc := s.pc + n }

/-- `pc <- t`. -/
def State.setPc (s : State) (t : Nat) : State := { s with pc := t }

/-! ### Stopping a run, and resuming one -/

/-- `raise Fault(c)` (R172): Faulted, the cause recorded, the run over; everything else as before the instruction. -/
def State.raise (s : State) (c : Cause) : State := { s with state := .faulted, cause := c, busy := false }

/-- The suspend (R91): Suspended and the run over; everything else as before the instruction. -/
def State.suspend (s : State) : State := { s with state := .suspended, busy := false }

/-- The halt (R120): Halted and the run over; everything else as before the instruction. -/
def State.halt (s : State) : State := { s with state := .halted, busy := false }

/-- The start of a run (R154): `busy <- 1` if `state` is Runnable, otherwise nothing. -/
def State.startRun (s : State) : State :=
  match s.state with
  | .runnable  => { s with busy := true }
  | .halted    => s
  | .suspended => s
  | .faulted   => s

/-- The only return (R176): `resume` takes Suspended to Runnable and starts a run (R155). -/
def State.resumeRun (s : State) : State :=
  match s.state with
  | .runnable  => s.startRun
  | .halted    => s.startRun
  | .suspended => State.startRun { s with state := .runnable }
  | .faulted   => s.startRun

/-- How an instruction ends: with the state its pseudocode reached, or, where it reached a `raise`, with the fault taken
in the state before the instruction began (R10, R172). -/
def State.commit (s : State) : Except Cause State → Host.Outcome State Fault Refusal
  | .ok t    => .next t
  | .error c => .next (s.raise c)

/-! ### The numeric codes -/

/-- The two-bit code of `state` (R24). -/
def RunState.code : RunState → Nat
  | .runnable => 0 | .halted => 1 | .suspended => 2 | .faulted => 3

/-- The code of `cause` (R25). -/
def Cause.code : Cause → Nat
  | .none => 0 | .illegalOpcode => 1 | .fetchOob => 2 | .illegalMode => 3 | .readOob => 4 | .writeOob => 5
  | .overflow => 6 | .badJumpTarget => 7 | .outputFull => 8

end Sys2Proof.Machine
end

