-- ==== Sys2Proof/Machine/Flags.lean ====
section
/-! DEFINITION. The engine has no flags (10_state.md R26). What stands here is what other machines would flag: the range
check of a result (a fault, 40_arithmetic.md R82), the word a comparison writes, and the test of a jump target. -/

namespace Sys2Proof.Machine

/-- `CheckRange(r)` (R82): the exact result, or `Fault(OVERFLOW)`; it does not wrap and does not saturate. -/
def checkRange (c : Config) (r : Int) : Except Cause Int :=
  if c.inRange r then .ok r else .error .overflow

/-- The word a comparison writes: exactly 1 or exactly 0 (R110, R111). -/
def truthWord (b : Bool) : Int := if b then 1 else 0

/-- The target of a taken jump as a program-counter value: a negative one raises `Fault(BAD_JUMP_TARGET)`, any other is
accepted (42_jump.md R102). -/
def checkJumpTarget (t : Int) : Except Cause Nat :=
  if t < 0 then .error .badJumpTarget else .ok t.toNat

end Sys2Proof.Machine
end

