-- ==== Sys2Proof/Machine/Operands.lean ====
section
/-! DEFINITION. The operand resolver (30_encoding.md R65, R66) and the shape that the four ALU instructions share
(format F3: two read operands, one write target). -/

namespace Sys2Proof.Machine

/-- `Resolve(p, m)` (R66). A mode digit 2 to 9 raises `Fault(ILLEGAL_MODE)`; under the lenient policy, which R66 allows
as a switch, it reads as mode 0 (assumption 12). -/
def State.resolve (s : State) (p : Int) : Mode → Except Cause Int
  | .positional => s.memRead p
  | .immediate  => .ok p
  | .unknown _  =>
    match s.cfg.unknownMode with
    | .fault      => .error .illegalMode
    | .positional => s.memRead p

/-- The effective values of two read operands, operand 1 completely before operand 2 (20_memory.md R56). -/
def State.resolve2 (s : State) (p1 p2 : Int) (m1 m2 : Mode) : Except Cause (Int × Int) :=
  match s.resolve p1 m1 with
  | .error c => .error c
  | .ok v1   =>
    match s.resolve p2 m2 with
    | .error c => .error c
    | .ok v2   => .ok (v1, v2)

/-- The pseudocode of the F3 instructions from the first `Resolve` on (R80, R81, R110, R111): resolve both operands,
compute, write the result to the write target, advance by 4. -/
def State.alu (s : State) (m1 m2 : Mode) (p1 p2 dst : Int) (f : Int → Int → Except Cause Int) :
    Except Cause State :=
  match s.resolve2 p1 p2 m1 m2 with
  | .error c     => .error c
  | .ok (v1, v2) =>
    match f v1 v2 with
    | .error c => .error c
    | .ok r    =>
      match s.memWrite dst r with
      | .error c => .error c
      | .ok t    => .ok (t.advance 4)

end Sys2Proof.Machine
end

