-- ==== Sys2Proof/Machine/Arithmetic.lean ====
section
/-! DEFINITION. The arithmetic instructions (40_arithmetic.md). -/

namespace Sys2Proof.Machine

/-- `add` (R80): `M[dst] <- v1 + v2`, `pc <- pc + 4`. -/
def execAdd (m1 m2 : Mode) (a b dst : Int) (s : State) : Host.Outcome State Fault Refusal :=
  s.commit (s.alu m1 m2 a b dst fun v1 v2 => checkRange s.cfg (v1 + v2))

/-- `mul` (R81): `M[dst] <- v1 * v2`, `pc <- pc + 4`. -/
def execMul (m1 m2 : Mode) (a b dst : Int) (s : State) : Host.Outcome State Fault Refusal :=
  s.commit (s.alu m1 m2 a b dst fun v1 v2 => checkRange s.cfg (v1 * v2))

end Sys2Proof.Machine
end

