-- ==== Sys2Proof/Machine/Compare.lean ====
section
/-! DEFINITION. The comparison instructions (43_compare.md). -/

namespace Sys2Proof.Machine

/-- `less-than` (R110): `M[dst] <- 1` if `v1 < v2` (signed), else 0; `pc <- pc + 4`. -/
def execLessThan (m1 m2 : Mode) (a b dst : Int) (s : State) : Host.Outcome State Fault Refusal :=
  s.commit (s.alu m1 m2 a b dst fun v1 v2 => .ok (truthWord (decide (v1 < v2))))

/-- `equals` (R111): `M[dst] <- 1` if `v1 = v2`, else 0; `pc <- pc + 4`. -/
def execEquals (m1 m2 : Mode) (a b dst : Int) (s : State) : Host.Outcome State Fault Refusal :=
  s.commit (s.alu m1 m2 a b dst fun v1 v2 => .ok (truthWord (decide (v1 = v2))))

end Sys2Proof.Machine
end

