-- ==== Sys2Proof/Machine/HaltIllegal.lean ====
section
/-! DEFINITION. `halt` and the illegal-opcode class (44_halt_illegal.md). -/

namespace Sys2Proof.Machine

/-- `halt` (R120): `state <- Halted`; `pc` does not advance. -/
def execHalt (s : State) : Host.Outcome State Fault Refusal := s.commit (.ok s.halt)

/-- `(illegal)` (R121): `raise Fault(ILLEGAL_OPCODE)`, whatever the word. -/
def execIllegal (_word : Int) (s : State) : Host.Outcome State Fault Refusal := s.commit (.error .illegalOpcode)

end Sys2Proof.Machine
end

