-- ==== Sys2Proof/Machine/InputOutput.lean ====
section
/-! DEFINITION. The input and output instructions (41_io.md) over the two FIFO operations (46_host_interface.md R160). -/

namespace Sys2Proof.Machine

/-- The push of the output FIFO (R160): the value is appended, or `Fault(OUTPUT_FULL)` where `OUT_DEPTH` words are
held already. -/
def State.pushOutput (s : State) (v : Int) : Except Cause State :=
  if s.cfg.outFits (s.outq.length + 1) then .ok { s with outq := s.outq ++ [v] } else .error .outputFull

/-- The tail of `input` once its target is checked (R90): the oldest value moves from `inq` to the target, `pc <- pc +
2`; an empty queue suspends (R91). -/
def State.takeInput (s : State) (dst : Int) : Except Cause State :=
  match s.inq with
  | []     => .ok s.suspend
  | v :: q =>
    match State.memWrite { s with inq := q } dst v with
    | .error c => .error c
    | .ok t    => .ok (t.advance 2)

/-- `input` (R90): the range of the target is tested before the queue is looked at. -/
def execInput (dst : Int) (s : State) : Host.Outcome State Fault Refusal :=
  s.commit
    (match s.checkTarget dst with
     | .error c => .error c
     | .ok ()   => s.takeInput dst)

/-- `output` (R92): `outq <- outq ++ [v1]`, `pc <- pc + 2`. -/
def execOutput (m1 : Mode) (a : Int) (s : State) : Host.Outcome State Fault Refusal :=
  s.commit
    (match s.resolve a m1 with
     | .error c => .error c
     | .ok v1   =>
       match s.pushOutput v1 with
       | .error c => .error c
       | .ok t    => .ok (t.advance 2))

end Sys2Proof.Machine
end

