-- ==== Sys2Proof/Machine/Jump.lean ====
section
/-! DEFINITION. Control transfer (42_jump.md). -/

namespace Sys2Proof.Machine

/-- The pseudocode the two jumps share (R100, R101): both operands are resolved whether or not the jump is taken; a
taken jump's target is checked (R102) and loaded; one not taken advances by 3. -/
def State.jump (s : State) (m1 m2 : Mode) (cond target : Int) (taken : Int → Bool) : Except Cause State :=
  match s.resolve2 cond target m1 m2 with
  | .error c     => .error c
  | .ok (v1, v2) =>
    if taken v1 then
      match checkJumpTarget v2 with
      | .error c => .error c
      | .ok t    => .ok (s.setPc t)
    else .ok (s.advance 3)

/-- `jump-if-true` (R100): taken on any non-zero value. -/
def execJumpIfTrue (m1 m2 : Mode) (cond target : Int) (s : State) : Host.Outcome State Fault Refusal :=
  s.commit (s.jump m1 m2 cond target fun v1 => decide (v1 ≠ 0))

/-- `jump-if-false` (R101): taken on zero. -/
def execJumpIfFalse (m1 m2 : Mode) (cond target : Int) (s : State) : Host.Outcome State Fault Refusal :=
  s.commit (s.jump m1 m2 cond target fun v1 => decide (v1 = 0))

end Sys2Proof.Machine
end

