-- ==== Sys2Proof/Machine/Dispatch.lean ====
section
/-! DEFINITION. The dispatcher (45_execution_loop.md R130): one arm per constructor of Instr. -/

namespace Sys2Proof.Machine

/-- The instruction's meaning in a state. As the pseudocode of every instruction rule does, it takes for granted that
`state` is Runnable and that the instruction was fetched at `pc` (40_arithmetic.md, template); `step` sees to both. -/
def exec (i : Instr) (s : State) : Host.Outcome State Fault Refusal :=
  match i with
  | .add m1 m2 a b dst => Sys2Proof.Machine.execAdd m1 m2 a b dst s
  | .mul m1 m2 a b dst => Sys2Proof.Machine.execMul m1 m2 a b dst s
  | .input dst => Sys2Proof.Machine.execInput dst s
  | .output m1 a => Sys2Proof.Machine.execOutput m1 a s
  | .jumpIfTrue m1 m2 cond target => Sys2Proof.Machine.execJumpIfTrue m1 m2 cond target s
  | .jumpIfFalse m1 m2 cond target => Sys2Proof.Machine.execJumpIfFalse m1 m2 cond target s
  | .lessThan m1 m2 a b dst => Sys2Proof.Machine.execLessThan m1 m2 a b dst s
  | .equals m1 m2 a b dst => Sys2Proof.Machine.execEquals m1 m2 a b dst s
  | .halt => Sys2Proof.Machine.execHalt s
  | .illegal word => Sys2Proof.Machine.execIllegal word s

end Sys2Proof.Machine
end

