-- ==== Sys2Proof/Machine/Engine.lean ====
section
/-! DEFINITION. The engine's step and loop: fetching an instruction's cells, decoding them, dispatching
(45_execution_loop.md R130), and the loop under fuel (R132, R135). -/

namespace Sys2Proof.Machine

/-- `Fetch(a), Fetch(a+1), ..` for `n` cells in increasing index (20_memory.md R56). -/
def State.fetchCells (s : State) (a : Nat) : Nat → Except Cause (List Word)
  | 0     => .ok []
  | n + 1 =>
    match s.fetch (a : Int) with
    | .error c => .error c
    | .ok w    =>
      match s.fetchCells (a + 1) n with
      | .error c => .error c
      | .ok ws   => .ok (w :: ws)

/-- The instruction at `pc` (R130, R56): the instruction word is fetched, its opcode says how many parameter cells are
fetched (none where it is illegal), and the cells are decoded. The cells are then as many as the decoder takes, so the
last case does not arise; it is the cause of a missing cell. -/
def State.fetchInstr (s : State) : Except Cause Instr :=
  match s.fetch (s.pc : Int) with
  | .error c => .error c
  | .ok w    =>
    match s.fetchCells (s.pc + 1) (paramCount w) with
    | .error c => .error c
    | .ok ps   =>
      match decode (w :: ps) with
      | .ok (i, _) => .ok i
      | .error _   => .error .fetchOob

/-- `Step` (R130): one instruction from fetch to commit. A fetch that faults is the fault FETCH_OOB of that step (R43). -/
def State.engineStep (s : State) : Host.Outcome State Fault Refusal :=
  match s.fetchInstr with
  | .error c => s.commit (.error c)
  | .ok i    => exec i s

/-- `Loop` (R132), under fuel, which is the executor's and not the architecture's (D13): "while state = Runnable do
Step". The loop has ended where the answer's `state` is not Runnable. -/
def State.loop : Nat → State → Host.Outcome State Fault Refusal
  | 0,        s => .next s
  | fuel + 1, s =>
    match s.state with
    | .runnable =>
      match s.engineStep with
      | .next t    => State.loop fuel t
      | .fault r   => .fault r
      | .refused r => .refused r
    | .halted    => .next s
    | .suspended => .next s
    | .faulted   => .next s

end Sys2Proof.Machine
end

