-- ==== Sys2Proof/Machine/HostPort.lean ====
section
/-! DEFINITION. The host interface (46_host_interface.md): which commands are accepted, what each does, what each
returns. A command is atomic: accepted whole, or refused with no effect (R163). -/

namespace Sys2Proof.Machine

/-- Every value is a word of the configuration (R7). -/
def allInRange (c : Config) (ws : List Word) : Bool := ws.all c.inRange

/-- The image can be loaded: not longer than `MEM_CAP`, every element in range (R150). -/
def imageAccepted (c : Config) (image : List Word) : Bool := c.memFits image.length && allInRange c image

/-- The command's arguments are acceptable in a state (R150, R152, R153, R157); a command without arguments has nothing
to check. -/
def State.argsAccepted (s : State) : HostCommand → Bool
  | .construct image    => imageAccepted s.cfg image
  | .resetMemory image  => imageAccepted s.cfg image
  | .setInputs values   => allInRange s.cfg values && s.cfg.inFits values.length
  | .addInput value     => s.cfg.inRange value && s.cfg.inFits (s.inq.length + 1)
  | .run                => true
  | .resume             => true
  | .outputs            => true
  | .isHalted           => true
  | .isSuspendedOnInput => true
  | .isFaulted          => true
  | .faultCause         => true
  | .readMemory         => true
  | .readPc             => true

/-- The command is accepted: the engine is idle (R161) and the arguments are acceptable. -/
def State.accepts (s : State) (cmd : HostCommand) : Bool := !s.busy && s.argsAccepted cmd

/-- `reset_memory(image)` (R157): memory, `MEMLEN`, `pc`, `state`, `cause` and `outq` as after `construct`; `inq` is
NOT changed. -/
def State.resetMemory (s : State) (image : List Word) : State :=
  { s with
    mem := Memory.ofImage image, memLen := image.length, pc := 0, state := .runnable, cause := .none, outq := [] }

/-- `construct(image)` (R150), the engine's reset (R200). -/
def State.construct (s : State) (image : List Word) : State :=
  { s.resetMemory image with inq := [], busy := false }

/-- The effect of an accepted command. The steps of the run that `run` or `resume` starts are the engine's own steps
that follow, until `busy` falls (R133; assumption 7). -/
def State.hostEffect (s : State) : HostCommand → State
  | .construct image    => s.construct image
  | .resetMemory image  => s.resetMemory image
  | .setInputs values   => { s with inq := values }
  | .addInput value     => { s with inq := s.inq ++ [value] }
  | .run                => s.startRun
  | .resume             => s.resumeRun
  | .outputs            => s
  | .isHalted           => s
  | .isSuspendedOnInput => s
  | .isFaulted          => s
  | .faultCause         => s
  | .readMemory         => s
  | .readPc             => s

/-- What an accepted command returns. -/
def State.hostAnswer (s : State) : HostCommand → HostReply
  | .construct _        => .done
  | .resetMemory _      => .done
  | .setInputs _        => .done
  | .addInput _         => .done
  | .run                => .done
  | .resume             => .done
  | .outputs            => .words s.outq
  | .isHalted           => .flag (decide (s.state = .halted))
  | .isSuspendedOnInput => .flag (decide (s.state = .suspended))
  | .isFaulted          => .flag (decide (s.state = .faulted))
  | .faultCause         => .cause s.cause
  | .readMemory         => .words (s.mem.slice 0 s.memLen)
  | .readPc             => .index s.pc

/-- One command given to an engine: its effect and its answer, or a refusal and no effect (R163). -/
def State.command (s : State) (cmd : HostCommand) : State × HostReply :=
  if s.accepts cmd then (s.hostEffect cmd, s.hostAnswer cmd) else (s, .refused)

/-- The host's move (R161): while the engine is idle, the next pending command is given and its answer kept. -/
def State.hostStep (s : State) : Host.Outcome State Fault Refusal :=
  match s.hostTodo with
  | []          => .fault .noMove
  | cmd :: rest =>
    let (t, reply) := State.command { s with hostTodo := rest } cmd
    .next { t with hostReplies := t.hostReplies ++ [reply] }

/-- An engine just built from an image under a configuration, with no host command pending (R150, R32). -/
def State.built (c : Config) (image : List Word) : State where
  mem         := Memory.ofImage image
  memLen      := image.length
  pc          := 0
  state       := .runnable
  cause       := .none
  inq         := []
  outq        := []
  busy        := false
  cfg         := c
  hostTodo    := []
  hostReplies := []

/-- A command given where no engine need exist yet (`none`): before the first `construct` there is no architected state
and only `construct` is accepted (R32, R200, D19). -/
def hostMove (c : Config) (engine : Option State) (cmd : HostCommand) : Option State × HostReply :=
  match engine with
  | some s => (some (s.command cmd).1, (s.command cmd).2)
  | none   =>
    match cmd with
    | .construct image    => if imageAccepted c image then (some (State.built c image), .done) else (none, .refused)
    | .resetMemory _      => (none, .refused)
    | .setInputs _        => (none, .refused)
    | .addInput _         => (none, .refused)
    | .run                => (none, .refused)
    | .resume             => (none, .refused)
    | .outputs            => (none, .refused)
    | .isHalted           => (none, .refused)
    | .isSuspendedOnInput => (none, .refused)
    | .isFaulted          => (none, .refused)
    | .faultCause         => (none, .refused)
    | .readMemory         => (none, .refused)
    | .readPc             => (none, .refused)

end Sys2Proof.Machine
end

