-- ==== Sys2Proof/Machine/Step.lean ====
section
/-! DEFINITION. One step of the machine, which has two agents that never act at the same time (45_execution_loop.md
R130, 46_host_interface.md R161): while `busy = 1` the engine executes the instruction at `pc`; while the engine is
idle the host gives its next command. -/

namespace Sys2Proof.Machine

/-- One step. The engine's step is defined only when `state` is Runnable and `busy = 1` (R130). -/
def step (s : State) : Host.Outcome State Fault Refusal :=
  match s.busy, s.state with
  | true,  .runnable  => s.engineStep
  | true,  .halted    => .fault .stepUndefined
  | true,  .suspended => .fault .stepUndefined
  | true,  .faulted   => .fault .stepUndefined
  | false, _          => s.hostStep

/-- The state with the instruction whose bits are `w` (`tableCells`) in the cells at `pc`, and all that the very next
step needs to execute it: the cells exist, and a run is on. It stands for the host's `construct(image)` and `run()`
(assumption 11). -/
def State.withFetchWord (s : State) (_nbits w : Nat) : State :=
  { s with
    mem := s.mem.writeList s.pc (tableCells w), memLen := max s.memLen (s.pc + (tableCells w).length),
    state := .runnable, cause := .none, busy := true }

end Sys2Proof.Machine
end

