-- ==== Sys2Proof/Safety.lean ====
section
/-! DEFINITION. The terms claims are stated in: the effective value of an operand and the first failing test as the
rules word them (independently of the operations that compute them), safe and ended runs, and the machine's invariant
(10_state.md R33). -/

namespace Sys2Proof.Machine

/-! ### Operands -/

/-- The address names a cell: `0 <= a < MEMLEN` (R9, R45). -/
def State.isCell (s : State) (a : Int) : Prop := 0 ≤ a ∧ a < s.memLen

/-- The read operand with raw parameter `p` has the effective value `v` (R11, R66): an immediate operand is its own
value; a positional one is the content of the cell it names; a digit 2 to 9 has a value only under the lenient
policy, where it is positional. -/
def State.readsAs (s : State) : Mode → Int → Int → Prop
  | .immediate,  p, v => v = p
  | .positional, p, v => s.isCell p ∧ v = s.cell p.toNat
  | .unknown _,  p, v => s.cfg.unknownMode = .positional ∧ s.isCell p ∧ v = s.cell p.toNat

/-- A mode of `{0, 1}`, the mode digits R83 and R112 speak of. -/
def isKnownMode : Mode → Prop
  | .positional => True
  | .immediate  => True
  | .unknown _  => False

/-! ### Effects -/

/-- The state after a store of `r` to the cell `dst` and an advance of `n` cells: that cell holds `r` (in a memory of
canonical form), every other cell and every other piece of state is as before. -/
def State.StoresAndAdvances (s t : State) (dst r : Int) (n : Nat) : Prop :=
  t = { s with mem := s.mem.write dst.toNat r, pc := s.pc + n } ∧
    (s.mem.wf s.memLen = true → t.cell dst.toNat = r) ∧ ∀ b, b ≠ dst.toNat → t.cell b = s.cell b

/-- `raise Fault(c)` spelled out (R172). -/
def State.faultedWith (s : State) (c : Cause) : State := { s with state := .faulted, cause := c, busy := false }

/-- The opcode of the word at `pc`: its low two decimal digits (R61). -/
def State.opcodeAtPc (s : State) : Nat := (s.cell s.pc).toNat % 100

/-- The engine holds an image just loaded (R150, R157): the memory, `MEMLEN`, `pc`, `state`, `cause` and `outq`. -/
def State.Loaded (t : State) (image : List Word) : Prop :=
  t.memLen = image.length ∧ (∀ i, i < image.length → image[i]? = some (t.cell i)) ∧ t.mem.wf t.memLen = true ∧
    t.pc = 0 ∧ t.state = .runnable ∧ t.cause = .none ∧ t.outq = []

/-! ### Tests of an instruction, in the order of R178 -/

/-- A test of R178: `some c` where it fails with cause `c`. -/
def failsWith (c : Cause) (failed : Prop) [Decidable failed] : Option Cause := if failed then some c else none

/-- The address is outside `0 .. MEMLEN-1`. -/
abbrev State.outside (s : State) (a : Int) : Prop := a < 0 ∨ (s.memLen : Int) ≤ a

/-- Orders 4 and 5 (6 and 7) of R178: the tests of one read operand, the mode first and then the address. -/
def State.operandTests (s : State) (m : Mode) (p : Int) : List (Option Cause) :=
  match m with
  | .immediate  => []
  | .positional => [failsWith .readOob (s.outside p)]
  | .unknown _  =>
    [failsWith .illegalMode (s.cfg.unknownMode = .fault), failsWith .readOob (s.outside p)]

/-- The value the resolver uses for an operand whose tests all pass. -/
def State.operandValue (s : State) (m : Mode) (p : Int) : Int :=
  match m with
  | .immediate  => p
  | .positional => s.cell p.toNat
  | .unknown _  => s.cell p.toNat

/-- What an instruction that completes stores, and where (R57, last column): the address in its write target and the
word; nothing for an instruction without a write. -/
def State.storeOf (s : State) : Instr → Option (Int × Int)
  | .add m1 m2 a b dst      => some (dst, s.operandValue m1 a + s.operandValue m2 b)
  | .mul m1 m2 a b dst      => some (dst, s.operandValue m1 a * s.operandValue m2 b)
  | .input dst              => s.inq.head?.map fun v => (dst, v)
  | .output _ _             => none
  | .jumpIfTrue _ _ _ _     => none
  | .jumpIfFalse _ _ _ _    => none
  | .lessThan m1 m2 a b dst => some (dst, if s.operandValue m1 a < s.operandValue m2 b then 1 else 0)
  | .equals m1 m2 a b dst   => some (dst, if s.operandValue m1 a = s.operandValue m2 b then 1 else 0)
  | .halt                   => none
  | .illegal _              => none

/-- Order 8 of R178 (opcodes 1 and 2): the exact result is a word. -/
def State.overflowTest (s : State) (r : Int) : List (Option Cause) := [failsWith .overflow (s.cfg.inRange r = false)]

/-- Order 9 of R178: the write target is in range. -/
def State.targetTest (s : State) (dst : Int) : List (Option Cause) := [failsWith .writeOob (s.outside dst)]

/-- Orders 2 and 4 to 11 of R178 for one instruction, in that order (orders 1 and 3 are made while it is fetched, order
12 is no fault). -/
def State.tests (s : State) : Instr → List (Option Cause)
  | .add m1 m2 a b dst    =>
    s.operandTests m1 a ++ s.operandTests m2 b ++ s.overflowTest (s.operandValue m1 a + s.operandValue m2 b)
      ++ s.targetTest dst
  | .mul m1 m2 a b dst    =>
    s.operandTests m1 a ++ s.operandTests m2 b ++ s.overflowTest (s.operandValue m1 a * s.operandValue m2 b)
      ++ s.targetTest dst
  | .input dst            => s.targetTest dst
  | .output m1 a          =>
    s.operandTests m1 a ++ [failsWith .outputFull (s.cfg.outFits (s.outq.length + 1) = false)]
  | .jumpIfTrue m1 m2 cond target  =>
    s.operandTests m1 cond ++ s.operandTests m2 target
      ++ [failsWith .badJumpTarget (s.operandValue m1 cond ≠ 0 ∧ s.operandValue m2 target < 0)]
  | .jumpIfFalse m1 m2 cond target =>
    s.operandTests m1 cond ++ s.operandTests m2 target
      ++ [failsWith .badJumpTarget (s.operandValue m1 cond = 0 ∧ s.operandValue m2 target < 0)]
  | .lessThan m1 m2 a b dst => s.operandTests m1 a ++ s.operandTests m2 b ++ s.targetTest dst
  | .equals m1 m2 a b dst   => s.operandTests m1 a ++ s.operandTests m2 b ++ s.targetTest dst
  | .halt                 => []
  | .illegal _            => [some .illegalOpcode]

/-- The first test that fails (R178: "the first `raise` its pseudocode reaches"). -/
def firstFailure : List (Option Cause) → Option Cause
  | []            => none
  | some c :: _   => some c
  | none :: tests => firstFailure tests

/-- The tests of a whole step, in the order of R178: the instruction word's cell, the word itself, the parameter cells
in increasing index, and then the tests of the instruction the cells hold. (Where a cell is missing an earlier test has
failed, so what the instruction's own tests say there does not matter.) -/
def State.stepTests (s : State) : List (Option Cause) :=
  [failsWith .fetchOob (s.memLen ≤ s.pc), failsWith .illegalOpcode (isIllegalWord (s.cell s.pc) = true)]
    ++ (List.range (paramCount (s.cell s.pc))).map (fun k => failsWith .fetchOob (s.memLen ≤ s.pc + k + 1))
    ++ (match decode (s.mem.slice s.pc 4) with
        | .ok (i, _) => s.tests i
        | .error _   => [])

/-- R173: the causes an instruction can raise once its cells are fetched and decoded. -/
def canRaise : Instr → Cause → Bool
  | .add _ _ _ _ _,       c => decide (c ∈ [Cause.illegalMode, .readOob, .writeOob, .overflow])
  | .mul _ _ _ _ _,       c => decide (c ∈ [Cause.illegalMode, .readOob, .writeOob, .overflow])
  | .input _,             c => decide (c = .writeOob)
  | .output _ _,          c => decide (c ∈ [Cause.illegalMode, .readOob, .outputFull])
  | .jumpIfTrue _ _ _ _,  c => decide (c ∈ [Cause.illegalMode, .readOob, .badJumpTarget])
  | .jumpIfFalse _ _ _ _, c => decide (c ∈ [Cause.illegalMode, .readOob, .badJumpTarget])
  | .lessThan _ _ _ _ _,  c => decide (c ∈ [Cause.illegalMode, .readOob, .writeOob])
  | .equals _ _ _ _ _,    c => decide (c ∈ [Cause.illegalMode, .readOob, .writeOob])
  | .halt,                _ => false
  | .illegal _,           c => decide (c = .illegalOpcode)

/-! ### Runs -/

/-- A safe state: the program has not gone wrong (R134: "ending Faulted is a failure"). -/
def State.Safe (s : State) : Prop := s.state ≠ .faulted

/-- The engine is executing: the one kind of state a step of the engine is defined in (R130). -/
def State.Running (s : State) : Prop := s.state = .runnable ∧ s.busy = true

/-- The run started in `s` ends in `t` (R134). -/
def State.EndsIn (s t : State) : Prop := t.state ≠ .runnable ∧ ∃ fuel, s.loop fuel = .next t

/-- The host commands that make `state` Runnable (R138): an accepted load, and `resume` on a Suspended engine. -/
def State.becomesRunnable (s : State) : HostCommand → Bool
  | .construct image    => imageAccepted s.cfg image
  | .resetMemory image  => imageAccepted s.cfg image
  | .resume             => decide (s.state = .suspended)
  | .setInputs _        => false
  | .addInput _         => false
  | .run                => false
  | .outputs            => false
  | .isHalted           => false
  | .isSuspendedOnInput => false
  | .isFaulted          => false
  | .faultCause         => false
  | .readMemory         => false
  | .readPc             => false

/-! ### The invariant (R33) -/

/-- What R33 item 5 says of a Suspended engine: `pc` is at an `input` instruction that passes its fault checks. -/
def State.AtInput (s : State) : Prop :=
  s.pc + 1 < s.memLen ∧ 0 ≤ s.cell s.pc ∧ (s.cell s.pc).toNat % 100 = 3 ∧ s.isCell (s.cell (s.pc + 1))

/-- What R33 item 6 says of a Halted engine: `pc` is at a `halt` word. -/
def State.AtHalt (s : State) : Prop := s.pc < s.memLen ∧ 0 ≤ s.cell s.pc ∧ (s.cell s.pc).toNat % 100 = 99

/-- The invariant of R33, with what R6 says of the configuration, what assumption 1 says of the form of memory, and what
R29 says of `busy`. -/
structure State.Inv (s : State) : Prop where
  /-- The configuration is one of R6's. -/
  cfgAdmissible : s.cfg.admissible = true
  /-- Memory is in canonical form. -/
  memCanonical  : s.mem.wf s.memLen = true
  /-- `MEMLEN <= MEM_CAP` (R6). -/
  memLenFits    : s.cfg.memFits s.memLen = true
  /-- Item 1, memory: every cell holds a word. -/
  cellsInRange  : ∀ a, s.cfg.inRange (s.cell a) = true
  /-- Item 1, the input queue. -/
  inqInRange    : ∀ v ∈ s.inq, s.cfg.inRange v = true
  /-- Item 1, the output queue. -/
  outqInRange   : ∀ v ∈ s.outq, s.cfg.inRange v = true
  /-- Item 2. -/
  pcInRange     : s.cfg.inRange (s.pc : Int) = true
  /-- Item 4. -/
  causeNone     : s.cause = .none ↔ s.state ≠ .faulted
  /-- Item 5. -/
  suspendedAt   : s.state = .suspended → s.AtInput
  /-- Item 6. -/
  haltedAt      : s.state = .halted → s.AtHalt
  /-- Item 7, the input queue. -/
  inqFits       : s.cfg.inFits s.inq.length = true
  /-- Item 7, the output queue. -/
  outqFits      : s.cfg.outFits s.outq.length = true
  /-- R29: `busy = 0` as soon as a step makes `state` different from Runnable. -/
  busyRunnable  : s.busy = true → s.state = .runnable

end Sys2Proof.Machine
end

