-- ==== Sys2Proof/Certificates/Slice0/Obligations.lean ====
section
/-! DEFINITION. The statements for the provers. Each docstring names the rules of spec/ it formalises; the terms are
those of Sys2Proof/Safety.lean. Every statement about a state holds for every configuration, which the state carries. -/

open Sys2Proof Sys2Proof.Machine

/-! ### Decoder and encoder -/

/-- A few instruction words written out from R61 and R68 decode to the instructions they stand for: every opcode, and
each used mode digit legal and illegal. -/
def Obligations.DecodesSpecWords : Prop :=
  decode [1101, -7, 3, 5] = .ok (.add .immediate .immediate (-7) 3 5, []) ∧
    decode [1002, 4, 3, 4] = .ok (.mul .positional .immediate 4 3 4, []) ∧
    decode [203, 9] = .ok (.input 9, []) ∧
    decode [2004, 3] = .ok (.output .positional 3, []) ∧
    decode [105, 1, 9] = .ok (.jumpIfTrue .immediate .positional 1 9, []) ∧
    decode [2105, 1, 3] = .ok (.jumpIfTrue .immediate (.unknown 2) 1 3, []) ∧
    decode [1006, 6, 5] = .ok (.jumpIfFalse .positional .immediate 6 5, []) ∧
    decode [107, 2, 6, 7] = .ok (.lessThan .immediate .positional 2 6 7, []) ∧
    decode [908, 1, 1, 0] = .ok (.equals (.unknown 9) .positional 1 1 0, []) ∧
    decode [12399] = .ok (.halt, []) ∧
    decode [-99] = .ok (.illegal (-99), []) ∧
    decode [1, 0, 0] = .error (.missingParameter 3)

/-- R73: decoding what the encoder emits gives the instruction back, with every operand at every value, whatever cells
follow. -/
def Obligations.DecodeOfEncode : Prop :=
  ∀ (c : Config) (i : Instr) (rest : List Word), i.wellFormed c = true → decode (encode i ++ rest) = .ok (i, rest)

/-- R74: the decoder raises on a negative word and on an opcode that is not one of the nine, and otherwise answers the
operation of that opcode value and digits 2 and 3, legal modes or not; `nparams` is 3, 1, 2 or 0; and a step at a word
the decoder raises on is the fault ILLEGAL_OPCODE. -/
def Obligations.DecodeFollowsDigits : Prop :=
  (∀ w : Int, decodeWord w = none ↔ w < 0 ∨ w.toNat % 100 ∉ [1, 2, 3, 4, 5, 6, 7, 8, 99]) ∧
    (∀ (w : Int) (op : Opcode) (d1 d2 : Nat), decodeWord w = some (op, d1, d2) ↔
      0 ≤ w ∧ w.toNat % 100 = op.value ∧ d1 = w.toNat / 100 % 10 ∧ d2 = w.toNat / 1000 % 10) ∧
    (∀ op : Opcode, op.nparams =
      if op.value ∈ [1, 2, 7, 8] then 3 else if op.value ∈ [3, 4] then 1 else if op.value ∈ [5, 6] then 2 else 0) ∧
    (∀ op : Opcode, op.value ∈ [1, 2, 3, 4, 5, 6, 7, 8, 99]) ∧
    ∀ s : State, s.Running → s.pc < s.memLen → decodeWord (s.cell s.pc) = none →
      step s = .next (s.faultedWith .illegalOpcode)

/-- R62, R121: the word at `pc` that is negative, or whose low two digits are none of 1 to 8 and 99, ends the run
Faulted with ILLEGAL_OPCODE and everything else unchanged, whatever follows it in memory; no other word does. -/
def Obligations.IllegalWordsFault : Prop :=
  ∀ s : State, s.Running → s.pc < s.memLen →
    ((s.cell s.pc < 0 ∨ s.opcodeAtPc = 0 ∨ (9 ≤ s.opcodeAtPc ∧ s.opcodeAtPc ≤ 98)) →
      step s = .next { s with state := .faulted, cause := .illegalOpcode, busy := false }) ∧
    (¬(s.cell s.pc < 0 ∨ s.opcodeAtPc = 0 ∨ (9 ≤ s.opcodeAtPc ∧ s.opcodeAtPc ≤ 98)) →
      ∀ t, step s = .next t → t.state = .faulted → t.cause ≠ .illegalOpcode)

/-- R73: of all the words that decode to the same instruction the canonical one, which the encoder emits, is the
smallest, and it decodes alike. -/
def Obligations.CanonicalWordIsLeast : Prop :=
  ∀ (w : Int) (ps rest : List Word) (i : Instr), isIllegalWord w = false → decode (w :: ps) = .ok (i, rest) →
    ∃ k : Int, (encode i).head? = some k ∧ 0 ≤ k ∧ k ≤ w ∧ decode (k :: ps) = .ok (i, rest)

/-- R63, R67: digit 4 and higher digits change nothing; nor do the mode digits of `input` and `halt`, nor the second
mode digit of `output`. -/
def Obligations.IgnoredDigitsChangeNothing : Prop :=
  (∀ (w : Int) (n : Nat) (ps : List Word), isIllegalWord w = false →
      decode ((w + 10000 * (n : Int)) :: ps) = decode (w :: ps)) ∧
    (∀ (d1 d2 : Nat) (dst : Int) (ps : List Word), d1 < 10 → d2 < 10 →
      decode (((3 + 100 * d1 + 1000 * d2 : Nat) : Int) :: dst :: ps) = .ok (.input dst, ps)) ∧
    (∀ (m1 : Mode) (d2 : Nat) (a : Int) (ps : List Word), m1.wellFormed = true → d2 < 10 →
      decode (((4 + 100 * m1.digit + 1000 * d2 : Nat) : Int) :: a :: ps) = .ok (.output m1 a, ps)) ∧
    ∀ (d1 d2 : Nat) (ps : List Word), d1 < 10 → d2 < 10 →
      decode (((99 + 100 * d1 + 1000 * d2 : Nat) : Int) :: ps) = .ok (.halt, ps)

/-! ### Memory and operands -/

/-- R43, R44: the two reads answer the cell's word in `0 .. MEMLEN-1` and raise their own cause everywhere else. -/
def Obligations.ReadsCheckRange : Prop :=
  ∀ (s : State) (a : Int),
    s.fetch a = (if a < 0 ∨ (s.memLen : Int) ≤ a then .error .fetchOob else .ok (s.cell a.toNat)) ∧
      s.memRead a = (if a < 0 ∨ (s.memLen : Int) ≤ a then .error .readOob else .ok (s.cell a.toNat))

/-- R45: a write outside `0 .. MEMLEN-1` raises WRITE_OOB; one inside makes that cell hold the word and leaves every
other cell and all other state unchanged. That memory also keeps its canonical form is the model's own (DESIGN CHOICE,
assumption 1), not the rule's. -/
def Obligations.WriteThenRead : Prop :=
  ∀ (s : State) (a v : Int), s.mem.wf s.memLen = true →
    (¬s.isCell a → s.memWrite a v = .error .writeOob) ∧
      (s.isCell a → ∃ t, s.memWrite a v = .ok t ∧ t.cell a.toNat = v ∧ (∀ b, b ≠ a.toNat → t.cell b = s.cell b) ∧
        t = { s with mem := t.mem } ∧ t.mem.wf t.memLen = true)

/-- R66: mode 0 reads the cell, mode 1 is the operand itself, a digit 2 to 9 raises ILLEGAL_MODE; under the lenient
policy, which R66 lets a model carry as a switch, it reads the cell. -/
def Obligations.ResolveByMode : Prop :=
  ∀ (s : State) (p : Int) (d : Nat),
    s.resolve p (.ofDigit 0) = s.memRead p ∧ s.resolve p (.ofDigit 1) = .ok p ∧
      (2 ≤ d → d ≤ 9 → s.resolve p (.ofDigit d) =
        if s.cfg.unknownMode = .fault then .error .illegalMode else s.memRead p)

/-! ### Arithmetic and comparison -/

/-- R80: `add` with readable operands, a sum that is a word and a target in memory completes: the sum is stored, `pc`
advances by 4. -/
def Obligations.AddWritesExactSum : Prop :=
  ∀ (s : State) (m1 m2 : Mode) (a b dst v1 v2 : Int), s.readsAs m1 a v1 → s.readsAs m2 b v2 →
    s.cfg.inRange (v1 + v2) = true → s.isCell dst →
    ∃ t, exec (.add m1 m2 a b dst) s = .next t ∧ s.StoresAndAdvances t dst (v1 + v2) 4

/-- R81: `mul` likewise, with the product. -/
def Obligations.MulWritesExactProduct : Prop :=
  ∀ (s : State) (m1 m2 : Mode) (a b dst v1 v2 : Int), s.readsAs m1 a v1 → s.readsAs m2 b v2 →
    s.cfg.inRange (v1 * v2) = true → s.isCell dst →
    ∃ t, exec (.mul m1 m2 a b dst) s = .next t ∧ s.StoresAndAdvances t dst (v1 * v2) 4

/-- R110: `less-than` with readable operands and a target in memory completes: exactly 1 or exactly 0 is stored, by the
signed comparison; it never overflows. -/
def Obligations.LessThanWritesTruth : Prop :=
  ∀ (s : State) (m1 m2 : Mode) (a b dst v1 v2 : Int), s.readsAs m1 a v1 → s.readsAs m2 b v2 → s.isCell dst →
    ∃ t, exec (.lessThan m1 m2 a b dst) s = .next t ∧ s.StoresAndAdvances t dst (if v1 < v2 then 1 else 0) 4

/-- R111: `equals` likewise, by equality. -/
def Obligations.EqualsWritesTruth : Prop :=
  ∀ (s : State) (m1 m2 : Mode) (a b dst v1 v2 : Int), s.readsAs m1 a v1 → s.readsAs m2 b v2 → s.isCell dst →
    ∃ t, exec (.equals m1 m2 a b dst) s = .next t ∧ s.StoresAndAdvances t dst (if v1 = v2 then 1 else 0) 4

/-- R82: an exact sum or product out of range raises OVERFLOW and writes nothing: no wrap, no saturation, and whatever
the write target is. -/
def Obligations.ArithmeticOverflowFaults : Prop :=
  ∀ (s : State) (m1 m2 : Mode) (a b dst v1 v2 : Int), s.readsAs m1 a v1 → s.readsAs m2 b v2 →
    (s.cfg.inRange (v1 + v2) = false → exec (.add m1 m2 a b dst) s = .next (s.faultedWith .overflow)) ∧
      (s.cfg.inRange (v1 * v2) = false → exec (.mul m1 m2 a b dst) s = .next (s.faultedWith .overflow))

/-- R83, R112: for every pair of modes in `{0, 1}`, if the instruction does not fault the word written is the operation
on the operands' values, where a value is the parameter itself or the cell it names: "mode only changes where the
operand is sourced from, never the semantics". -/
def Obligations.ModeIndependence : Prop :=
  ∀ (s t : State) (m1 m2 : Mode) (a b dst : Int), isKnownMode m1 → isKnownMode m2 → s.Safe → t.Safe →
    (exec (.add m1 m2 a b dst) s = .next t →
      t.mem = s.mem.write dst.toNat (s.operandValue m1 a + s.operandValue m2 b)) ∧
    (exec (.mul m1 m2 a b dst) s = .next t →
      t.mem = s.mem.write dst.toNat (s.operandValue m1 a * s.operandValue m2 b)) ∧
    (exec (.lessThan m1 m2 a b dst) s = .next t →
      t.mem = s.mem.write dst.toNat (if s.operandValue m1 a < s.operandValue m2 b then 1 else 0)) ∧
    (exec (.equals m1 m2 a b dst) s = .next t →
      t.mem = s.mem.write dst.toNat (if s.operandValue m1 a = s.operandValue m2 b then 1 else 0))

/-- The frame of `add`, `mul`, `less-than`, `equals`: every cell but the write target's, `MEMLEN`, both queues, the
configuration and the host agent are unchanged; `state`, `cause` and `busy` are unchanged unless the instruction
faults, and then memory and `pc` are. -/
def Obligations.AluFrame : Prop :=
  ∀ (s t : State) (m1 m2 : Mode) (a b dst : Int) (i : Instr),
    (i = .add m1 m2 a b dst ∨ i = .mul m1 m2 a b dst ∨ i = .lessThan m1 m2 a b dst ∨ i = .equals m1 m2 a b dst) →
    exec i s = .next t →
    (∀ x : Nat, (x : Int) ≠ dst → t.cell x = s.cell x) ∧ t.memLen = s.memLen ∧ t.inq = s.inq ∧ t.outq = s.outq ∧
      t.cfg = s.cfg ∧ t.hostTodo = s.hostTodo ∧ t.hostReplies = s.hostReplies ∧
      ((t.state = s.state ∧ t.cause = s.cause ∧ t.busy = s.busy) ∨
        (t.state = .faulted ∧ t.busy = false ∧ t.mem = s.mem ∧ t.pc = s.pc))

/-! ### Input and output -/

/-- R90: `input` with a target in memory and a value waiting completes: the oldest value is removed and stored, `pc`
advances by 2, and the rest of the queue keeps its order. -/
def Obligations.InputTakesOldest : Prop :=
  ∀ (s : State) (dst v : Int) (q : List Word), s.isCell dst → s.inq = v :: q →
    ∃ t, exec (.input dst) s = .next t ∧ State.StoresAndAdvances { s with inq := q } t dst v 2

/-- R90, R91: `input` with a target in memory and an empty queue suspends: `state` and `busy` change, nothing else. -/
def Obligations.InputSuspendsOnEmptyQueue : Prop :=
  ∀ (s : State) (dst : Int), s.isCell dst → s.inq = [] →
    exec (.input dst) s = .next { s with state := .suspended, busy := false }

/-- R90: the target's range is tested before the queue is looked at: a bad target faults whether or not a value is
waiting, and consumes none. -/
def Obligations.InputBadTargetFaults : Prop :=
  ∀ (s : State) (dst : Int), dst < 0 ∨ (s.memLen : Int) ≤ dst →
    exec (.input dst) s = .next { s with state := .faulted, cause := .writeOob, busy := false }

/-- The frame of `input`: every cell but the write target's, `MEMLEN`, `outq`, the configuration and the host agent are
unchanged; `inq` loses at most its head; `state`, `cause` and `busy` change only in a suspend or a fault, and then
memory, `inq` and `pc` do not. -/
def Obligations.InputFrame : Prop :=
  ∀ (s t : State) (dst : Int), exec (.input dst) s = .next t →
    (∀ x : Nat, (x : Int) ≠ dst → t.cell x = s.cell x) ∧ t.memLen = s.memLen ∧ t.outq = s.outq ∧ t.cfg = s.cfg ∧
      t.hostTodo = s.hostTodo ∧ t.hostReplies = s.hostReplies ∧
      ((t.state = s.state ∧ t.cause = s.cause ∧ t.busy = s.busy ∧ ∃ v, s.inq = v :: t.inq) ∨
        (t.state = .suspended ∧ t.cause = s.cause ∧ t.busy = false ∧ t.mem = s.mem ∧ t.inq = s.inq ∧ t.pc = s.pc) ∨
        (t.state = .faulted ∧ t.busy = false ∧ t.mem = s.mem ∧ t.inq = s.inq ∧ t.pc = s.pc))

/-- R92: `output` with a readable operand and room in the output FIFO completes: the value is appended, `pc` advances by
2, nothing else changes. -/
def Obligations.OutputAppends : Prop :=
  ∀ (s : State) (m1 : Mode) (a v1 : Int), s.readsAs m1 a v1 → s.cfg.outFits (s.outq.length + 1) = true →
    exec (.output m1 a) s = .next { s with outq := s.outq ++ [v1], pc := s.pc + 2 }

/-- The frame of `output`: no byte of memory changes, nor `MEMLEN`, `inq`, the configuration or the host agent; `outq`
keeps all it held; `state`, `cause` and `busy` change only in a fault, and then `outq` and `pc` do not. -/
def Obligations.OutputFrame : Prop :=
  ∀ (s t : State) (m1 : Mode) (a : Int), exec (.output m1 a) s = .next t →
    (∀ x : Nat, t.cell x = s.cell x) ∧ t.mem = s.mem ∧ t.memLen = s.memLen ∧ t.inq = s.inq ∧ t.cfg = s.cfg ∧
      t.hostTodo = s.hostTodo ∧ t.hostReplies = s.hostReplies ∧
      ((t.state = s.state ∧ t.cause = s.cause ∧ t.busy = s.busy ∧ ∃ v, t.outq = s.outq ++ [v]) ∨
        (t.state = .faulted ∧ t.busy = false ∧ t.outq = s.outq ∧ t.pc = s.pc))

/-- R93: with no value queued the step at an `input` leaves the engine Suspended with `pc` unchanged; one accepted
`add_input(v)` and `resume()` then make the next step consume that value alone and go past the instruction. -/
def Obligations.SuspendResumeRoundTrip : Prop :=
  ∀ (s : State) (dst v : Int), s.Running → s.fetchInstr = .ok (.input dst) → s.isCell dst → s.inq = [] →
    s.cfg.inRange v = true → s.cfg.inFits 1 = true →
    ∃ t u w, step s = .next t ∧ t.state = .suspended ∧ t.pc = s.pc ∧
      t.command (.addInput v) = (u, .done) ∧ u.state = .suspended ∧ u.inq = [v] ∧
      (u.command .resume).2 = .done ∧ (u.command .resume).1.Running ∧
      step (u.command .resume).1 = .next w ∧ w.Running ∧ w.pc = s.pc + 2 ∧ w.inq = [] ∧
      w.mem = s.mem.write dst.toNat v

/-! ### Control transfer -/

/-- R100, R103: `jump-if-true` with readable operands: a non-zero condition (negative ones included) loads a
non-negative target, a zero condition advances by 3 whatever the target's value, and nothing else changes. -/
def Obligations.JumpIfTrueTwoWay : Prop :=
  ∀ (s : State) (m1 m2 : Mode) (cond target v1 v2 : Int), s.readsAs m1 cond v1 → s.readsAs m2 target v2 →
    (v1 ≠ 0 → 0 ≤ v2 → exec (.jumpIfTrue m1 m2 cond target) s = .next { s with pc := v2.toNat }) ∧
      (v1 = 0 → exec (.jumpIfTrue m1 m2 cond target) s = .next { s with pc := s.pc + 3 })

/-- R101, R103: `jump-if-false` with the condition inverted. -/
def Obligations.JumpIfFalseTwoWay : Prop :=
  ∀ (s : State) (m1 m2 : Mode) (cond target v1 v2 : Int), s.readsAs m1 cond v1 → s.readsAs m2 target v2 →
    (v1 = 0 → 0 ≤ v2 → exec (.jumpIfFalse m1 m2 cond target) s = .next { s with pc := v2.toNat }) ∧
      (v1 ≠ 0 → exec (.jumpIfFalse m1 m2 cond target) s = .next { s with pc := s.pc + 3 })

/-- R102: a taken jump with a negative target raises BAD_JUMP_TARGET and leaves `pc` at the jump; one with a target at
or beyond MEMLEN completes with `pc` there, and the next step faults with FETCH_OOB; a target of a jump not taken is
not examined. Both jumps (`taken` says which conditions take each). -/
def Obligations.JumpTargetsAreChecked : Prop :=
  ∀ (s : State) (m1 m2 : Mode) (cond target v1 v2 : Int) (i : Instr) (taken : Prop),
    s.readsAs m1 cond v1 → s.readsAs m2 target v2 →
    ((i = .jumpIfTrue m1 m2 cond target ∧ (taken ↔ v1 ≠ 0)) ∨ (i = .jumpIfFalse m1 m2 cond target ∧ (taken ↔ v1 = 0))) →
    (taken → v2 < 0 → exec i s = .next (s.faultedWith .badJumpTarget)) ∧
      (taken → (s.memLen : Int) ≤ v2 → ∃ t, exec i s = .next t ∧ t = { s with pc := v2.toNat } ∧
        (t.Running → step t = .next (t.faultedWith .fetchOob))) ∧
      (¬taken → exec i s = .next { s with pc := s.pc + 3 })

/-- The frame of the two jumps: no byte of memory changes; everything but `pc` is unchanged, or the instruction faults
and `pc` is unchanged too. -/
def Obligations.JumpFrame : Prop :=
  ∀ (s t : State) (m1 m2 : Mode) (cond target : Int) (i : Instr),
    (i = .jumpIfTrue m1 m2 cond target ∨ i = .jumpIfFalse m1 m2 cond target) → exec i s = .next t →
    (∀ x : Nat, t.cell x = s.cell x) ∧ (t = { s with pc := t.pc } ∨ ∃ c, c ≠ .none ∧ t = s.faultedWith c)

/-! ### Halt and illegal -/

/-- R120: every word with low digits 99 is `halt`, whose one cell is all it takes; executing it makes the engine Halted
with the run over and everything else unchanged, `pc` included; it cannot fault. -/
def Obligations.HaltStops : Prop :=
  (∀ (w : Int) (ps : List Word), 0 ≤ w → w.toNat % 100 = 99 → decode (w :: ps) = .ok (.halt, ps)) ∧
    (∀ s : State, exec .halt s = .next { s with state := .halted, busy := false }) ∧
    ∀ s : State, s.Running → s.pc < s.memLen → 0 ≤ s.cell s.pc → s.opcodeAtPc = 99 →
      step s = .next { s with state := .halted, busy := false }

/-- R121: the instruction `(illegal)` takes the fault ILLEGAL_OPCODE in every state: Faulted, the cause recorded, the run
over, everything else unchanged. -/
def Obligations.IllegalTakesFault : Prop :=
  ∀ (s : State) (w : Int),
    exec (.illegal w) s = .next { s with state := .faulted, cause := .illegalOpcode, busy := false }

/-! ### The step -/

/-- R130: in a running state, when the cells at `pc` are in memory and decode to an instruction, the step is that
instruction's meaning in that state, with nothing around it. -/
def Obligations.StepRunsDecodedInstruction : Prop :=
  ∀ (s : State) (n : Nat) (i : Instr) (rest : List Word), s.Running → s.pc + n ≤ s.memLen →
    decode (s.mem.slice s.pc n) = .ok (i, rest) → step s = exec i s

/-- R172, R178: the step reports the first failing test of the order of R178, and the fault changes `state`, `cause` and
`busy` and nothing else; if no test fails the step does not fault, and it suspends exactly if it is an `input` that
finds the queue empty. -/
def Obligations.FirstFailingTestDecides : Prop :=
  ∀ s : State, s.Running →
    (∀ c, firstFailure s.stepTests = some c →
      step s = .next { s with state := .faulted, cause := c, busy := false }) ∧
    (firstFailure s.stepTests = none → ∃ t, step s = .next t ∧ t.state ≠ .faulted ∧
      (t.state = .suspended ↔ s.opcodeAtPc = 3 ∧ s.inq = []))

/-- R130, R137: in a running state a step never stops the model, and it has exactly one of the four outcomes: completed
(still running, `cause` as before), halted, suspended (each changing `state` and `busy` only), or faulted (changing
`state`, `cause` and `busy` only). -/
def Obligations.RunningStepHasFourOutcomes : Prop :=
  ∀ s : State, s.Running → ∃ t, step s = .next t ∧
    ((t.Running ∧ t.cause = s.cause) ∨ t = { s with state := .halted, busy := false } ∨
      t = { s with state := .suspended, busy := false } ∨ ∃ c, c ≠ .none ∧ t = s.faultedWith c)

/-- R130 (table), R42, R160: what a running step can change, by the opcode of the word at `pc`: only opcodes 1, 2, 7, 8
and 3 change a cell, and that cell is the one their write-target parameter names; only opcode 3 changes `inq`, by
removing its head; only opcode 4 changes `outq`, by one value at its end; only 99 halts and only 3 suspends; `MEMLEN`,
the configuration and the host agent never change. -/
def Obligations.StepChangesByOpcode : Prop :=
  ∀ s t : State, s.Running → step s = .next t →
    (∀ x : Nat, t.cell x ≠ s.cell x →
      (s.opcodeAtPc ∈ [1, 2, 7, 8] ∧ (x : Int) = s.cell (s.pc + 3)) ∨ (s.opcodeAtPc = 3 ∧ (x : Int) = s.cell (s.pc + 1))) ∧
    (t.inq ≠ s.inq → s.opcodeAtPc = 3 ∧ ∃ v, s.inq = v :: t.inq) ∧
    (t.outq ≠ s.outq → s.opcodeAtPc = 4 ∧ ∃ v, t.outq = s.outq ++ [v]) ∧
    (t.state = .halted → s.opcodeAtPc = 99) ∧ (t.state = .suspended → s.opcodeAtPc = 3) ∧
    t.memLen = s.memLen ∧ t.cfg = s.cfg ∧ t.hostTodo = s.hostTodo ∧ t.hostReplies = s.hostReplies

/-- R23: the program counter after each instruction, row by row; unchanged whenever the instruction faults. -/
def Obligations.PcAfterEachInstruction : Prop :=
  ∀ (s t : State) (i : Instr), s.Safe → exec i s = .next t →
    t.pc =
      if t.state = .faulted then s.pc
      else
        match i with
        | .add _ _ _ _ _                => s.pc + 4
        | .mul _ _ _ _ _                => s.pc + 4
        | .input _                      => if s.inq = [] then s.pc else s.pc + 2
        | .output _ _                   => s.pc + 2
        | .jumpIfTrue m1 m2 cond target =>
          if s.operandValue m1 cond ≠ 0 then (s.operandValue m2 target).toNat else s.pc + 3
        | .jumpIfFalse m1 m2 cond target =>
          if s.operandValue m1 cond = 0 then (s.operandValue m2 target).toNat else s.pc + 3
        | .lessThan _ _ _ _ _           => s.pc + 4
        | .equals _ _ _ _ _             => s.pc + 4
        | .halt                         => s.pc
        | .illegal _                    => s.pc

/-- R173: an instruction raises only the causes of its row. -/
def Obligations.CausesByInstruction : Prop :=
  ∀ (s t : State) (i : Instr), s.Safe → exec i s = .next t → t.state = .faulted → canRaise i t.cause = true

/-- R57 (last column): an instruction that does not fault changes memory by exactly the store `storeOf` gives it, and by
none where it gives none: every instruction of the table. -/
def Obligations.InstructionStoresExactly : Prop :=
  ∀ (s t : State) (i : Instr), s.Safe → exec i s = .next t → t.Safe →
    match s.storeOf i with
    | some (dst, r) => s.isCell dst ∧ t.mem = s.mem.write dst.toNat r
    | none          => t.mem = s.mem

/-- R54: a store is seen by the fetch that follows it with nothing in between, the fetch of the next instruction word
included: a stored word with low digits 99 at the new `pc` halts, an illegal one faults. -/
def Obligations.StoreSeenByNextFetch : Prop :=
  ∀ (s t : State) (i : Instr) (dst r : Int), s.mem.wf s.memLen = true → s.Running → exec i s = .next t → t.Running →
    s.storeOf i = some (dst, r) →
    t.fetch dst = .ok r ∧
      (dst = (t.pc : Int) → isIllegalWord r = true → step t = .next (t.faultedWith .illegalOpcode)) ∧
      (dst = (t.pc : Int) → 0 ≤ r → r.toNat % 100 = 99 → step t = .next { t with state := .halted, busy := false })

/-- R138: every transition of `state` a step can make, with the agent that makes it and its condition; the rows are all
there are, the one that builds an engine included. -/
def Obligations.StateTransitions : Prop :=
  (∀ s t : State, step s = .next t →
    (s.Running ∧
      (t.state = .runnable ∨
        (t.state = .halted ∧ s.opcodeAtPc = 99) ∨
        (t.state = .suspended ∧ s.opcodeAtPc = 3 ∧ s.isCell (s.cell (s.pc + 1)) ∧ s.inq = []) ∨
        (t.state = .faulted ∧ t.cause ≠ .none))) ∨
    (s.busy = false ∧ ∃ cmd rest, s.hostTodo = cmd :: rest ∧
      t.state = if s.becomesRunnable cmd = true then .runnable else s.state)) ∧
  ∀ (c : Config) (cmd : HostCommand) (u : State) (reply : HostReply), hostMove c none cmd = (some u, reply) →
    (∃ image, cmd = .construct image) ∧ u.state = .runnable

/-- R41: no instruction changes MEMLEN; a step changes it only as an accepted `construct` or `reset_memory`, and then to
the length of the image loaded. -/
def Obligations.MemoryLengthFixed : Prop :=
  (∀ (s t : State) (i : Instr), exec i s = .next t → t.memLen = s.memLen) ∧
  (∀ s t : State, step s = .next t → s.busy = true → t.memLen = s.memLen) ∧
  ∀ s t : State, step s = .next t → s.busy = false →
    t.memLen = s.memLen ∨
      ∃ image rest, (s.hostTodo = .construct image :: rest ∨ s.hostTodo = .resetMemory image :: rest) ∧
        imageAccepted s.cfg image = true ∧ t.memLen = image.length

/-! ### Runs -/

/-- R136: across any number of steps of a run MEMLEN and the configuration are unchanged, `outq` only grows at its end,
`inq` only shrinks from its head, and `cause` stays NONE until a step faults; and the loop never stops the model. -/
def Obligations.RunPreserves : Prop :=
  ∀ (k : Nat) (s : State), ∃ t, s.loop k = .next t ∧ t.memLen = s.memLen ∧ t.cfg = s.cfg ∧ s.outq <+: t.outq ∧
    t.inq <:+ s.inq ∧ (s.cause = .none → t.state ≠ .faulted → t.cause = .none)

/-- R132, R133: the loop of a running engine is the machine's own steps, one after another, until `state` is no longer
Runnable. -/
def Obligations.LoopIsRepeatedSteps : Prop :=
  ∀ (k : Nat) (s : State), s.Running →
    ∃ j t, j ≤ k ∧ s.loop k = .next t ∧ Sys2Proof.core.run j s = .next t ∧ (j < k → t.state ≠ .runnable)

/-- R175: the suspend is invisible: a run that suspends, is fed values the host queues with `set_inputs`, is resumed and
goes on to a state, reaches the same state as the run that had those values queued behind its own from the start. -/
def Obligations.SuspendIsInvisible : Prop :=
  ∀ (s t r : State) (values : List Word) (k k' : Nat), s.Running → s.loop k = .next t → t.state = .suspended →
    (t.command (.setInputs values)).2 = .done →
    (((t.command (.setInputs values)).1.command .resume).1).loop k' = .next r →
    ∃ m, State.loop m { s with inq := s.inq ++ values } = .next r

/-- R6: a finite instance only adds faults to the document-exact instance: a run that does not fault makes the same run,
value for value, with unbounded words and queues. -/
def Obligations.DocumentExactRefines : Prop :=
  ∀ (k : Nat) (s t : State), s.cfg.unknownMode = .fault → s.loop k = .next t → t.Safe →
    State.loop k { s with cfg := Config.documentExact } = .next { t with cfg := Config.documentExact }

/-- R66: a run that does not fault under the normative policy for unknown modes is the same run under the lenient one. -/
def Obligations.LenientPolicyAgrees : Prop :=
  ∀ (k : Nat) (s t : State), s.cfg.unknownMode = .fault → s.loop k = .next t → t.Safe →
    State.loop k { s with cfg := { s.cfg with unknownMode := .positional } } =
      .next { t with cfg := { s.cfg with unknownMode := .positional } }

/-- R6, R171: with unbounded words OVERFLOW, and with an unbounded output FIFO OUTPUT_FULL, is never raised. -/
def Obligations.UnboundedInstanceNeverFills : Prop :=
  ∀ s t : State, s.Running → s.cause = .none → step s = .next t →
    (s.cfg.width = none → t.cause ≠ .overflow) ∧ (s.cfg.outDepth = none → t.cause ≠ .outputFull)

/-- R25: `cause` never influences anything but what the host reads of it: in every state, running, idle or stuck, a
step with another `cause` ends the same way, in a state that differs in `cause` at most, and in the host's answers only
where the host asked for the cause. (That the host and its answers stand in the state is assumption 5, DESIGN CHOICE.) -/
def Obligations.CauseNeverInfluences : Prop :=
  ∀ (s : State) (c : Cause),
    (∀ t, step s = .next t →
      ∃ t', step { s with cause := c } = .next t' ∧
        { t' with cause := t.cause, hostReplies := t.hostReplies } = t ∧
        (t'.hostReplies = t.hostReplies ∨ (s.busy = false ∧ s.hostTodo.head? = some .faultCause))) ∧
    ∀ r, step s = .fault r → step { s with cause := c } = .fault r

/-! ### The invariant -/

/-- R33, over both agents' steps: from every state that meets the invariant, whatever the host does, a step that answers
a next state keeps it. (The canonical form within it is assumption 1, DESIGN CHOICE.) -/
def Obligations.EveryStepKeepsInv : Prop :=
  ∀ s t : State, s.Inv → step s = .next t → t.Inv

/-- The state after reset, which is the model's choice (DESIGN CHOICE, assumptions 3 and 4), meets the invariant, the
canonical form of memory (DESIGN CHOICE, assumption 1) included. -/
def Obligations.ResetMeetsInv : Prop := State.reset.Inv

/-- R33, R150: the engine that `construct` builds, under every admissible configuration and from every accepted image,
meets the invariant. (The canonical form within it is assumption 1, DESIGN CHOICE.) -/
def Obligations.BuiltEngineMeetsInv : Prop :=
  ∀ (c : Config) (image : List Word), c.admissible = true → imageAccepted c image = true → (State.built c image).Inv

/-- R137, R130: in a state that meets the invariant a step always has a next state, but for one case: the engine is idle
and the host has nothing more to do. -/
def Obligations.OnlyIdlenessStops : Prop :=
  ∀ s : State, s.Inv →
    (∃ t, step s = .next t) ∨ (s.busy = false ∧ s.hostTodo = [] ∧ step s = .fault .noMove)

/-! ### The host -/

/-- R32, with the model's choice of the image (DESIGN CHOICE, assumption 4): reset is the engine built from the empty
image: no memory, `pc` 0, Runnable, no cause, empty queues, idle. (The canonical form in `Loaded` is assumption 1.) -/
def Obligations.ResetIsEmptyConstruct : Prop :=
  (∃ reply, hostMove Config.hardware none (.construct []) = (some State.reset, reply)) ∧ State.reset.Loaded [] ∧
    State.reset.inq = [] ∧ State.reset.busy = false

/-- R150: `construct(image)` is accepted exactly when no engine exists or it is idle, and the image fits and holds
words; accepted, it loads the image and empties both queues, the engine waiting Runnable and idle; otherwise nothing
happens. That the loaded memory is in canonical form (`Loaded`) is the model's own (DESIGN CHOICE, assumption 1), not
the rule's. -/
def Obligations.ConstructLoadsImage : Prop :=
  (∀ (s : State) (image : List Word),
    (s.accepts (.construct image) = true ↔
      s.busy = false ∧ s.cfg.memFits image.length = true ∧ ∀ v ∈ image, s.cfg.inRange v = true) ∧
    (s.accepts (.construct image) = true → ∃ t, s.command (.construct image) = (t, .done) ∧ t.Loaded image ∧
      t.inq = [] ∧ t.busy = false ∧ t.cfg = s.cfg) ∧
    (s.accepts (.construct image) = false → s.command (.construct image) = (s, .refused))) ∧
  ∀ (c : Config) (image : List Word),
    ((c.memFits image.length = true ∧ ∀ v ∈ image, c.inRange v = true) →
      ∃ t, hostMove c none (.construct image) = (some t, .done) ∧ t.Loaded image ∧ t.inq = [] ∧ t.busy = false ∧
        t.cfg = c) ∧
    (¬(c.memFits image.length = true ∧ ∀ v ∈ image, c.inRange v = true) →
      hostMove c none (.construct image) = (none, .refused))

/-- R157, R202: `reset_memory(image)`, accepted as `construct` is but only where an engine exists, in every value of
`state`, loads the image as `construct` does and leaves the input queue as it is. That the loaded memory is in canonical
form (`Loaded`) is the model's own (DESIGN CHOICE, assumption 1), not the rule's. -/
def Obligations.ResetMemoryKeepsInput : Prop :=
  (∀ (s : State) (image : List Word),
    (s.accepts (.resetMemory image) = true ↔
      s.busy = false ∧ s.cfg.memFits image.length = true ∧ ∀ v ∈ image, s.cfg.inRange v = true) ∧
    (s.accepts (.resetMemory image) = true → ∃ t, s.command (.resetMemory image) = (t, .done) ∧ t.Loaded image ∧
      t.inq = s.inq ∧ t.busy = false ∧ t.cfg = s.cfg) ∧
    (s.accepts (.resetMemory image) = false → s.command (.resetMemory image) = (s, .refused))) ∧
  ∀ (c : Config) (image : List Word), hostMove c none (.resetMemory image) = (none, .refused)

/-- R152, R153: `set_inputs` replaces the whole input queue and `add_input` appends to it, in every value of `state` and
changing nothing else; they are refused while busy, for a value out of range, and beyond IN_DEPTH, which an unbounded
queue never is. -/
def Obligations.InputCommands : Prop :=
  ∀ (s : State) (values : List Word) (v : Int),
    s.command (.setInputs values) =
      (if s.busy = false ∧ (∀ x ∈ values, s.cfg.inRange x = true) ∧ s.cfg.inFits values.length = true
       then ({ s with inq := values }, .done) else (s, .refused)) ∧
    s.command (.addInput v) =
      (if s.busy = false ∧ s.cfg.inRange v = true ∧ s.cfg.inFits (s.inq.length + 1) = true
       then ({ s with inq := s.inq ++ [v] }, .done) else (s, .refused)) ∧
    (s.cfg.inDepth = none → s.cfg.inFits (s.inq.length + 1) = true)

/-- R161, R163: while the engine is idle a step IS the host's next command, its whole effect at once or none, with its
answer added to what the host got back; a command leaves the host agent itself alone. (The form of the host agent is
assumption 5, DESIGN CHOICE.) R154, R155: an idle engine accepts `run` and `resume`: `run` makes a Runnable engine busy,
`resume` a Runnable or Suspended one Runnable and busy (the loop is the steps that follow, until `busy` falls);
otherwise nothing changes. -/
def Obligations.HostStepRunAndResume : Prop :=
  (∀ (s : State) (cmd : HostCommand) (rest : List HostCommand), s.busy = false → s.hostTodo = cmd :: rest →
    step s = .next { (State.command { s with hostTodo := rest } cmd).1 with
      hostReplies := s.hostReplies ++ [(State.command { s with hostTodo := rest } cmd).2] }) ∧
  (∀ (s : State) (cmd : HostCommand),
    (s.command cmd).1.hostTodo = s.hostTodo ∧ (s.command cmd).1.hostReplies = s.hostReplies ∧
      (s.command cmd).1.cfg = s.cfg) ∧
  ∀ s : State, s.busy = false →
    s.command .run = (if s.state = .runnable then { s with busy := true } else s, .done) ∧
    s.command .resume =
      (if s.state = .runnable ∨ s.state = .suspended then { s with state := .runnable, busy := true } else s, .done)

/-- R156, R158, R159: the reads of an idle engine return what the rules say and change nothing; the three predicates
are exclusive and all false exactly when Runnable; and no command but the two loads changes memory, MEMLEN or `pc`. -/
def Obligations.ObservationsChangeNothing : Prop :=
  (∀ s : State, s.busy = false →
    s.command .outputs = (s, .words s.outq) ∧
    s.command .isHalted = (s, .flag (decide (s.state = .halted))) ∧
    s.command .isSuspendedOnInput = (s, .flag (decide (s.state = .suspended))) ∧
    s.command .isFaulted = (s, .flag (decide (s.state = .faulted))) ∧
    s.command .faultCause = (s, .cause s.cause) ∧
    (∃ ws, s.command .readMemory = (s, .words ws) ∧ ws.length = s.memLen ∧
      ∀ i, i < s.memLen → ws[i]? = some (s.cell i)) ∧
    s.command .readPc = (s, .index s.pc) ∧
    ([decide (s.state = .halted), decide (s.state = .suspended), decide (s.state = .faulted)].count true =
      if s.state = .runnable then 0 else 1)) ∧
  ∀ (s : State) (cmd : HostCommand), (∀ image, cmd ≠ .construct image ∧ cmd ≠ .resetMemory image) →
    (s.command cmd).1.mem = s.mem ∧ (s.command cmd).1.memLen = s.memLen ∧ (s.command cmd).1.pc = s.pc

/-- R161: while `busy = 1` every command is refused, status reads included, and no step gives one. -/
def Obligations.BusyRefusesCommands : Prop :=
  ∀ s : State, s.busy = true →
    (∀ cmd, s.command cmd = (s, .refused)) ∧
    ∀ t, step s = .next t → t.hostTodo = s.hostTodo ∧ t.hostReplies = s.hostReplies

/-- R174: in state Faulted no engine step is defined, `run` and `resume` do nothing, and `state` and `cause` stay as they
are until `construct` or `reset_memory` loads a program. -/
def Obligations.FaultedIsTerminal : Prop :=
  ∀ s : State, s.state = .faulted →
    (s.busy = true → step s = .fault .stepUndefined) ∧
    (s.busy = false → s.command .run = (s, .done) ∧ s.command .resume = (s, .done)) ∧
    ∀ t, step s = .next t →
      (t.state = .faulted ∧ t.cause = s.cause) ∨
        ∃ image rest, (s.hostTodo = .construct image :: rest ∨ s.hostTodo = .resetMemory image :: rest) ∧
          imageAccepted s.cfg image = true ∧ t.state = .runnable ∧ t.cause = .none

/-- R122: once Halted, `resume` (and `run`) change nothing at all, and a step leaves `state` Halted and the outputs as
they are unless it loads a program. -/
def Obligations.HaltedIsTerminal : Prop :=
  ∀ s : State, s.state = .halted →
    (s.busy = false → s.command .resume = (s, .done) ∧ s.command .run = (s, .done)) ∧
    ∀ t, step s = .next t →
      (t.state = .halted ∧ t.outq = s.outq) ∨
        ∃ image rest, (s.hostTodo = .construct image :: rest ∨ s.hostTodo = .resetMemory image :: rest) ∧
          imageAccepted s.cfg image = true ∧ t.state = .runnable

/-- R32, R200: where no engine exists yet every command but `construct` is refused and none comes to exist. -/
def Obligations.UnconstructedAcceptsOnlyConstruct : Prop :=
  ∀ (c : Config) (cmd : HostCommand), (∀ image, cmd ≠ .construct image) → hostMove c none cmd = (none, .refused)
end

