-- ==== Sys2Proof/Laws/Decode.lean ====
section
/-! SUPPORT. The laws of the decoder and the encoder: which words are illegal, what the opcode map selects, how many
cells an instruction takes. -/

namespace Sys2Proof

@[simp] theorem Mode.ofDigit_digit {m : Mode} (h : m.wellFormed = true) : Mode.ofDigit m.digit = m := by
  cases m with
  | positional => rfl
  | immediate => rfl
  | unknown d =>
    simp only [Mode.wellFormed, Bool.and_eq_true, decide_eq_true_eq] at h
    obtain ⟨k, rfl⟩ := Nat.exists_eq_add_of_le' h.1
    rfl

@[simp] theorem Mode.digit_ofDigit (d : Nat) : (Mode.ofDigit d).digit = d := by
  rcases d with _ | _ | d <;> rfl

theorem Mode.digit_lt_ten {m : Mode} (h : m.wellFormed = true) : m.digit < 10 := by
  cases m <;> simp_all [Mode.wellFormed, Mode.digit]; omega

theorem Mode.wellFormed_ofDigit {d : Nat} (h : d < 10) : (Mode.ofDigit d).wellFormed = true := by
  rcases d with _ | _ | d <;> simp [Mode.ofDigit, Mode.wellFormed]; omega

/-- The opcode map read both ways. -/
theorem Opcode.ofValue_eq_some_iff {n : Nat} {op : Opcode} : Opcode.ofValue n = some op ↔ n = op.value := by
  constructor
  · intro h
    simp only [Opcode.ofValue, opcodeMap, List.lookup_cons] at h
    repeat' split at h
    all_goals simp_all [Opcode.value]
    all_goals (cases op <;> simp_all)
  · rintro rfl; cases op <;> rfl

theorem Opcode.ofValue_eq_none_iff {n : Nat} (hn : n < 100) : Opcode.ofValue n = none ↔ n = 0 ∨ (9 ≤ n ∧ n ≤ 98) := by
  have : ∀ n : Fin 100, Opcode.ofValue n = none ↔ n.val = 0 ∨ (9 ≤ n.val ∧ n.val ≤ 98) := by decide
  exact this ⟨n, hn⟩

/-- The decoder refuses exactly the words of R69. -/
theorem decodeWord_eq_none_iff (w : Int) : decodeWord w = none ↔ isIllegalWord w = true := by
  have hlt : w.toNat % 100 < 100 := Nat.mod_lt _ (by decide)
  have hn := Opcode.ofValue_eq_none_iff hlt
  unfold decodeWord isIllegalWord
  split
  · simp_all
  · split <;> (simp_all; try omega)

/-- What the decoder reads from a word that selects an operation. -/
theorem decodeWord_eq_some_iff (w : Int) (op : Opcode) (d1 d2 : Nat) :
    decodeWord w = some (op, d1, d2) ↔
      0 ≤ w ∧ w.toNat % 100 = op.value ∧ d1 = decDigit w.toNat 2 ∧ d2 = decDigit w.toNat 3 := by
  unfold decodeWord
  split
  · simp; omega
  · split
    · next h =>
      simp only [reduceCtorEq, false_iff, not_and]
      intro _ hv
      rw [Opcode.ofValue_eq_some_iff.mpr hv] at h
      cases h
    · next op' h =>
      have := Opcode.ofValue_eq_some_iff.mp h
      constructor
      · intro he
        simp only [Option.some.injEq, Prod.mk.injEq] at he
        obtain ⟨rfl, rfl, rfl⟩ := he
        exact ⟨by omega, this, rfl, rfl⟩
      · rintro ⟨_, hv, rfl, rfl⟩
        rw [Opcode.ofValue_eq_some_iff.mpr hv] at h
        cases h
        rfl

/-- The canonical word decodes to its operation and its mode digits. -/
theorem decodeWord_canonicalWord (op : Opcode) {m1 m2 : Mode} (h1 : m1.wellFormed = true) (h2 : m2.wellFormed = true) :
    decodeWord (canonicalWord op m1 m2) = some (op, m1.digit, m2.digit) := by
  have hv : op.value < 100 := by cases op <;> decide
  have := Mode.digit_lt_ten h1
  have := Mode.digit_lt_ten h2
  rw [decodeWord_eq_some_iff]
  unfold canonicalWord decDigit
  rw [Int.toNat_natCast]
  refine ⟨by omega, ?_, ?_, ?_⟩ <;> omega

/-- A digit of a decoded word is a decimal digit. -/
theorem decDigit_lt_ten (w k : Nat) : decDigit w k < 10 := Nat.mod_lt _ (by decide)

/-- An instruction is assembled from as many parameters as its format has, and from no other number. -/
theorem assemble_eq_none_iff (op : Opcode) (m1 m2 : Mode) (ps : List Word) :
    assemble op m1 m2 ps = none ↔ ps.length ≠ op.nparams := by
  rcases ps with _ | ⟨a, _ | ⟨b, _ | ⟨c, _ | ⟨d, ps⟩⟩⟩⟩ <;> cases op <;> simp [assemble, Opcode.nparams]

theorem assemble_length {op : Opcode} {m1 m2 : Mode} {ps : List Word} {i : Instr} (h : assemble op m1 m2 ps = some i) :
    i.length = 1 + op.nparams := by
  unfold assemble at h
  split at h <;> first | (cases h; rfl) | cases h

/-- The instruction of an illegal word. -/
theorem decode_illegal {w : Int} (h : isIllegalWord w = true) (rest : List Word) :
    decode (w :: rest) = .ok (.illegal w, rest) := by
  simp [decode, (decodeWord_eq_none_iff w).mpr h]

/-- The instruction of a word that selects an operation, when its parameters are there. -/
theorem decode_legal {w : Int} {op : Opcode} {d1 d2 : Nat} (h : decodeWord w = some (op, d1, d2)) {rest : List Word}
    (hr : op.nparams ≤ rest.length) :
    ∃ i, assemble op (.ofDigit d1) (.ofDigit d2) (rest.take op.nparams) = some i ∧
      decode (w :: rest) = .ok (i, rest.drop op.nparams) := by
  cases ha : assemble op (.ofDigit d1) (.ofDigit d2) (rest.take op.nparams) with
  | none =>
    rw [assemble_eq_none_iff] at ha
    simp at ha
    omega
  | some i => exact ⟨i, rfl, by simp [decode, h, ha]⟩

/-- What the decoder can answer: an illegal word alone, or an operation with exactly its parameters. -/
theorem decode_cases {w : Int} {ps rest : List Word} {i : Instr} (h : decode (w :: ps) = .ok (i, rest)) :
    (isIllegalWord w = true ∧ i = .illegal w ∧ rest = ps) ∨
      ∃ op d1 d2, decodeWord w = some (op, d1, d2) ∧
        assemble op (.ofDigit d1) (.ofDigit d2) (ps.take op.nparams) = some i ∧ rest = ps.drop op.nparams := by
  rw [decode] at h
  cases hw : decodeWord w with
  | none =>
    rw [hw] at h
    cases h
    exact .inl ⟨(decodeWord_eq_none_iff w).mp hw, rfl, rfl⟩
  | some x =>
    obtain ⟨op, d1, d2⟩ := x
    simp only [hw] at h
    cases ha : assemble op (.ofDigit d1) (.ofDigit d2) (ps.take op.nparams) with
    | none => simp only [ha] at h; cases h
    | some j => simp only [ha] at h; cases h; exact .inr ⟨op, d1, d2, rfl, ha, rfl⟩

/-- A mode digit 0 to 9 makes a well-formed mode of a decoded word. -/
theorem decodeWord_digits {w : Int} {op : Opcode} {d1 d2 : Nat} (h : decodeWord w = some (op, d1, d2)) :
    d1 < 10 ∧ d2 < 10 := by
  obtain ⟨-, -, rfl, rfl⟩ := (decodeWord_eq_some_iff _ _ _ _).mp h
  exact ⟨decDigit_lt_ten _ _, decDigit_lt_ten _ _⟩

/-- Cells that hold words of a configuration decode to a well-formed instruction. -/
theorem decode_wellFormed {c : Config} {ws rest : List Word} {i : Instr} (hw : ∀ w ∈ ws, c.inRange w = true)
    (h : decode ws = .ok (i, rest)) : i.wellFormed c = true := by
  cases ws with
  | nil => cases h
  | cons w ps =>
    obtain ⟨hi, rfl, -⟩ | ⟨op, d1, d2, hs, ha, -⟩ := decode_cases h
    · simp [Instr.wellFormed, hi, hw w (by simp)]
    · have h1 := Mode.wellFormed_ofDigit (decodeWord_digits hs).1
      have h2 := Mode.wellFormed_ofDigit (decodeWord_digits hs).2
      have hp : ∀ v ∈ ps.take op.nparams, c.inRange v = true :=
        fun v hv => hw v (List.mem_cons_of_mem _ (List.mem_of_mem_take hv))
      revert ha hp
      generalize ps.take op.nparams = qs
      intro ha hp
      unfold assemble at ha
      split at ha <;> cases ha <;> simp_all [Instr.wellFormed]

/-- The decoder consumes exactly the instruction's own cells. -/
theorem decode_length {ws rest : List Word} {i : Instr} (h : decode ws = .ok (i, rest)) :
    rest = ws.drop i.length ∧ i.length ≤ ws.length := by
  cases ws with
  | nil => cases h
  | cons w ps =>
    obtain ⟨-, rfl, rfl⟩ | ⟨op, d1, d2, -, ha, rfl⟩ := decode_cases h
    · simp [Instr.length]
    · have hl := assemble_length ha
      have hn : ¬(ps.take op.nparams).length ≠ op.nparams := by
        rw [← assemble_eq_none_iff op (.ofDigit d1) (.ofDigit d2), ha]; simp
      simp at hn
      rw [hl, Nat.add_comm]
      exact ⟨rfl, by simpa using hn⟩

/-- The instruction's length is one more than its word's parameter count. -/
theorem decode_paramCount {w : Int} {ps rest : List Word} {i : Instr} (h : decode (w :: ps) = .ok (i, rest)) :
    i.length = 1 + paramCount w := by
  obtain ⟨hw, rfl, -⟩ | ⟨op, d1, d2, hs, ha, -⟩ := decode_cases h
  · simp [paramCount, (decodeWord_eq_none_iff w).mpr hw, Instr.length]
  · simp [paramCount, hs, assemble_length ha]

/-- The cells after an instruction do not take part in its decoding. -/
theorem decode_append {ws rest : List Word} {i : Instr} (h : decode ws = .ok (i, rest)) (more : List Word) :
    decode (ws ++ more) = .ok (i, rest ++ more) := by
  cases ws with
  | nil => cases h
  | cons w ps =>
    obtain ⟨hw, rfl, rfl⟩ | ⟨op, d1, d2, hs, ha, rfl⟩ := decode_cases h
    · exact decode_illegal hw _
    · have hn : ¬(ps.take op.nparams).length ≠ op.nparams := by
        rw [← assemble_eq_none_iff op (.ofDigit d1) (.ofDigit d2), ha]; simp
      simp at hn
      have ht : (ps ++ more).take op.nparams = ps.take op.nparams := List.take_append_of_le_length hn
      have hd : (ps ++ more).drop op.nparams = ps.drop op.nparams ++ more := List.drop_append_of_le_length hn
      simp [decode, hs, ht, ha, hd]

end Sys2Proof
end

