-- ==== Sys2Proof/Laws/State.lean ====
section
/-! SUPPORT. One lemma per field per update of State, so that no proof unfolds a record update. -/

namespace Sys2Proof.Machine

variable (s : State)

/-! ### `setCell` -/

@[simp] theorem State.setCell_mem (a : Nat) (v : Int) : (s.setCell a v).mem = s.mem.write a v := rfl
@[simp] theorem State.setCell_memLen (a : Nat) (v : Int) : (s.setCell a v).memLen = s.memLen := rfl
@[simp] theorem State.setCell_pc (a : Nat) (v : Int) : (s.setCell a v).pc = s.pc := rfl
@[simp] theorem State.setCell_state (a : Nat) (v : Int) : (s.setCell a v).state = s.state := rfl
@[simp] theorem State.setCell_cause (a : Nat) (v : Int) : (s.setCell a v).cause = s.cause := rfl
@[simp] theorem State.setCell_inq (a : Nat) (v : Int) : (s.setCell a v).inq = s.inq := rfl
@[simp] theorem State.setCell_outq (a : Nat) (v : Int) : (s.setCell a v).outq = s.outq := rfl
@[simp] theorem State.setCell_busy (a : Nat) (v : Int) : (s.setCell a v).busy = s.busy := rfl
@[simp] theorem State.setCell_cfg (a : Nat) (v : Int) : (s.setCell a v).cfg = s.cfg := rfl
@[simp] theorem State.setCell_hostTodo (a : Nat) (v : Int) : (s.setCell a v).hostTodo = s.hostTodo := rfl
@[simp] theorem State.setCell_hostReplies (a : Nat) (v : Int) : (s.setCell a v).hostReplies = s.hostReplies := rfl

/-! ### `advance` -/

@[simp] theorem State.advance_mem (n : Nat) : (s.advance n).mem = s.mem := rfl
@[simp] theorem State.advance_memLen (n : Nat) : (s.advance n).memLen = s.memLen := rfl
@[simp] theorem State.advance_pc (n : Nat) : (s.advance n).pc = s.pc + n := rfl
@[simp] theorem State.advance_state (n : Nat) : (s.advance n).state = s.state := rfl
@[simp] theorem State.advance_cause (n : Nat) : (s.advance n).cause = s.cause := rfl
@[simp] theorem State.advance_inq (n : Nat) : (s.advance n).inq = s.inq := rfl
@[simp] theorem State.advance_outq (n : Nat) : (s.advance n).outq = s.outq := rfl
@[simp] theorem State.advance_busy (n : Nat) : (s.advance n).busy = s.busy := rfl
@[simp] theorem State.advance_cfg (n : Nat) : (s.advance n).cfg = s.cfg := rfl
@[simp] theorem State.advance_hostTodo (n : Nat) : (s.advance n).hostTodo = s.hostTodo := rfl
@[simp] theorem State.advance_hostReplies (n : Nat) : (s.advance n).hostReplies = s.hostReplies := rfl

/-! ### `setPc` -/

@[simp] theorem State.setPc_mem (t : Nat) : (s.setPc t).mem = s.mem := rfl
@[simp] theorem State.setPc_memLen (t : Nat) : (s.setPc t).memLen = s.memLen := rfl
@[simp] theorem State.setPc_pc (t : Nat) : (s.setPc t).pc = t := rfl
@[simp] theorem State.setPc_state (t : Nat) : (s.setPc t).state = s.state := rfl
@[simp] theorem State.setPc_cause (t : Nat) : (s.setPc t).cause = s.cause := rfl
@[simp] theorem State.setPc_inq (t : Nat) : (s.setPc t).inq = s.inq := rfl
@[simp] theorem State.setPc_outq (t : Nat) : (s.setPc t).outq = s.outq := rfl
@[simp] theorem State.setPc_busy (t : Nat) : (s.setPc t).busy = s.busy := rfl
@[simp] theorem State.setPc_cfg (t : Nat) : (s.setPc t).cfg = s.cfg := rfl
@[simp] theorem State.setPc_hostTodo (t : Nat) : (s.setPc t).hostTodo = s.hostTodo := rfl
@[simp] theorem State.setPc_hostReplies (t : Nat) : (s.setPc t).hostReplies = s.hostReplies := rfl

/-! ### `raise` -/

@[simp] theorem State.raise_mem (c : Cause) : (s.raise c).mem = s.mem := rfl
@[simp] theorem State.raise_memLen (c : Cause) : (s.raise c).memLen = s.memLen := rfl
@[simp] theorem State.raise_pc (c : Cause) : (s.raise c).pc = s.pc := rfl
@[simp] theorem State.raise_state (c : Cause) : (s.raise c).state = .faulted := rfl
@[simp] theorem State.raise_cause (c : Cause) : (s.raise c).cause = c := rfl
@[simp] theorem State.raise_inq (c : Cause) : (s.raise c).inq = s.inq := rfl
@[simp] theorem State.raise_outq (c : Cause) : (s.raise c).outq = s.outq := rfl
@[simp] theorem State.raise_busy (c : Cause) : (s.raise c).busy = false := rfl
@[simp] theorem State.raise_cfg (c : Cause) : (s.raise c).cfg = s.cfg := rfl
@[simp] theorem State.raise_hostTodo (c : Cause) : (s.raise c).hostTodo = s.hostTodo := rfl
@[simp] theorem State.raise_hostReplies (c : Cause) : (s.raise c).hostReplies = s.hostReplies := rfl

/-! ### `suspend` -/

@[simp] theorem State.suspend_mem : s.suspend.mem = s.mem := rfl
@[simp] theorem State.suspend_memLen : s.suspend.memLen = s.memLen := rfl
@[simp] theorem State.suspend_pc : s.suspend.pc = s.pc := rfl
@[simp] theorem State.suspend_state : s.suspend.state = .suspended := rfl
@[simp] theorem State.suspend_cause : s.suspend.cause = s.cause := rfl
@[simp] theorem State.suspend_inq : s.suspend.inq = s.inq := rfl
@[simp] theorem State.suspend_outq : s.suspend.outq = s.outq := rfl
@[simp] theorem State.suspend_busy : s.suspend.busy = false := rfl
@[simp] theorem State.suspend_cfg : s.suspend.cfg = s.cfg := rfl
@[simp] theorem State.suspend_hostTodo : s.suspend.hostTodo = s.hostTodo := rfl
@[simp] theorem State.suspend_hostReplies : s.suspend.hostReplies = s.hostReplies := rfl

/-! ### `halt` -/

@[simp] theorem State.halt_mem : s.halt.mem = s.mem := rfl
@[simp] theorem State.halt_memLen : s.halt.memLen = s.memLen := rfl
@[simp] theorem State.halt_pc : s.halt.pc = s.pc := rfl
@[simp] theorem State.halt_state : s.halt.state = .halted := rfl
@[simp] theorem State.halt_cause : s.halt.cause = s.cause := rfl
@[simp] theorem State.halt_inq : s.halt.inq = s.inq := rfl
@[simp] theorem State.halt_outq : s.halt.outq = s.outq := rfl
@[simp] theorem State.halt_busy : s.halt.busy = false := rfl
@[simp] theorem State.halt_cfg : s.halt.cfg = s.cfg := rfl
@[simp] theorem State.halt_hostTodo : s.halt.hostTodo = s.hostTodo := rfl
@[simp] theorem State.halt_hostReplies : s.halt.hostReplies = s.hostReplies := rfl

/-! ### `resetMemory` -/

@[simp] theorem State.resetMemory_mem (image : List Word) : (s.resetMemory image).mem = Memory.ofImage image := rfl
@[simp] theorem State.resetMemory_memLen (image : List Word) : (s.resetMemory image).memLen = image.length := rfl
@[simp] theorem State.resetMemory_pc (image : List Word) : (s.resetMemory image).pc = 0 := rfl
@[simp] theorem State.resetMemory_state (image : List Word) : (s.resetMemory image).state = .runnable := rfl
@[simp] theorem State.resetMemory_cause (image : List Word) : (s.resetMemory image).cause = .none := rfl
@[simp] theorem State.resetMemory_inq (image : List Word) : (s.resetMemory image).inq = s.inq := rfl
@[simp] theorem State.resetMemory_outq (image : List Word) : (s.resetMemory image).outq = [] := rfl
@[simp] theorem State.resetMemory_busy (image : List Word) : (s.resetMemory image).busy = s.busy := rfl
@[simp] theorem State.resetMemory_cfg (image : List Word) : (s.resetMemory image).cfg = s.cfg := rfl
@[simp] theorem State.resetMemory_hostTodo (image : List Word) : (s.resetMemory image).hostTodo = s.hostTodo := rfl
@[simp] theorem State.resetMemory_hostReplies (image : List Word) : (s.resetMemory image).hostReplies = s.hostReplies := rfl

/-! ### `construct` -/

@[simp] theorem State.construct_mem (image : List Word) : (s.construct image).mem = Memory.ofImage image := rfl
@[simp] theorem State.construct_memLen (image : List Word) : (s.construct image).memLen = image.length := rfl
@[simp] theorem State.construct_pc (image : List Word) : (s.construct image).pc = 0 := rfl
@[simp] theorem State.construct_state (image : List Word) : (s.construct image).state = .runnable := rfl
@[simp] theorem State.construct_cause (image : List Word) : (s.construct image).cause = .none := rfl
@[simp] theorem State.construct_inq (image : List Word) : (s.construct image).inq = [] := rfl
@[simp] theorem State.construct_outq (image : List Word) : (s.construct image).outq = [] := rfl
@[simp] theorem State.construct_busy (image : List Word) : (s.construct image).busy = false := rfl
@[simp] theorem State.construct_cfg (image : List Word) : (s.construct image).cfg = s.cfg := rfl
@[simp] theorem State.construct_hostTodo (image : List Word) : (s.construct image).hostTodo = s.hostTodo := rfl
@[simp] theorem State.construct_hostReplies (image : List Word) : (s.construct image).hostReplies = s.hostReplies := rfl

/-! ### `startRun` and `resumeRun` -/

@[simp] theorem State.startRun_mem : s.startRun.mem = s.mem := by
  unfold State.startRun; split <;> rfl
@[simp] theorem State.resumeRun_mem : s.resumeRun.mem = s.mem := by
  unfold State.resumeRun; split <;> simp
@[simp] theorem State.startRun_memLen : s.startRun.memLen = s.memLen := by
  unfold State.startRun; split <;> rfl
@[simp] theorem State.resumeRun_memLen : s.resumeRun.memLen = s.memLen := by
  unfold State.resumeRun; split <;> simp
@[simp] theorem State.startRun_pc : s.startRun.pc = s.pc := by
  unfold State.startRun; split <;> rfl
@[simp] theorem State.resumeRun_pc : s.resumeRun.pc = s.pc := by
  unfold State.resumeRun; split <;> simp
@[simp] theorem State.startRun_cause : s.startRun.cause = s.cause := by
  unfold State.startRun; split <;> rfl
@[simp] theorem State.resumeRun_cause : s.resumeRun.cause = s.cause := by
  unfold State.resumeRun; split <;> simp
@[simp] theorem State.startRun_inq : s.startRun.inq = s.inq := by
  unfold State.startRun; split <;> rfl
@[simp] theorem State.resumeRun_inq : s.resumeRun.inq = s.inq := by
  unfold State.resumeRun; split <;> simp
@[simp] theorem State.startRun_outq : s.startRun.outq = s.outq := by
  unfold State.startRun; split <;> rfl
@[simp] theorem State.resumeRun_outq : s.resumeRun.outq = s.outq := by
  unfold State.resumeRun; split <;> simp
@[simp] theorem State.startRun_cfg : s.startRun.cfg = s.cfg := by
  unfold State.startRun; split <;> rfl
@[simp] theorem State.resumeRun_cfg : s.resumeRun.cfg = s.cfg := by
  unfold State.resumeRun; split <;> simp
@[simp] theorem State.startRun_hostTodo : s.startRun.hostTodo = s.hostTodo := by
  unfold State.startRun; split <;> rfl
@[simp] theorem State.resumeRun_hostTodo : s.resumeRun.hostTodo = s.hostTodo := by
  unfold State.resumeRun; split <;> simp
@[simp] theorem State.startRun_hostReplies : s.startRun.hostReplies = s.hostReplies := by
  unfold State.startRun; split <;> rfl
@[simp] theorem State.resumeRun_hostReplies : s.resumeRun.hostReplies = s.hostReplies := by
  unfold State.resumeRun; split <;> simp
@[simp] theorem State.startRun_state : s.startRun.state = s.state := by
  unfold State.startRun; split <;> rfl

/-- A run is started in state Runnable and in no other. -/
theorem State.startRun_eq : s.startRun = if s.state = .runnable then { s with busy := true } else s := by
  unfold State.startRun; split <;> simp_all

/-- `resume` restarts a Suspended engine, starts a Runnable one, and leaves any other alone. -/
theorem State.resumeRun_eq :
    s.resumeRun = if s.state = .suspended ∨ s.state = .runnable then { s with state := .runnable, busy := true } else s := by
  obtain ⟨mem, memLen, pc, state, cause, inq, outq, busy, cfg, todo, replies⟩ := s
  cases state <;> rfl

end Sys2Proof.Machine
end

