-- ==== Sys2Proof/Laws/Memory.lean ====
section
/-! SUPPORT. The laws of the memory array: a read after a write, the canonical form and what keeps it, that equal reads
make equal memories, and what an image loads. -/

namespace Sys2Proof.Machine

@[simp] theorem Memory.read_nil (a : Nat) : Memory.read [] a = Memory.unlisted := rfl

theorem Memory.read_cons (k : Nat) (v : Int) (t : Memory) (a : Nat) :
    Memory.read ((k, v) :: t) a = if k = a then v else Memory.read t a := rfl

/-- The canonical form from a lower bound on, opened up. -/
theorem Memory.wfFrom_cons {lo len k : Nat} {v : Int} {t : Memory} :
    Memory.wfFrom lo len ((k, v) :: t) = true ↔
      (lo ≤ k ∧ k < len ∧ v ≠ Memory.unlisted) ∧ Memory.wfFrom (k + 1) len t = true := by
  simp [Memory.wfFrom, and_assoc]

theorem Memory.wfFrom_mono {lo lo' len len' : Nat} {m : Memory} (hlo : lo' ≤ lo) (hlen : len ≤ len')
    (h : Memory.wfFrom lo len m = true) : Memory.wfFrom lo' len' m = true := by
  induction m generalizing lo lo' with
  | nil => rfl
  | cons c t ih =>
    obtain ⟨k, v⟩ := c
    rw [Memory.wfFrom_cons] at h ⊢
    exact ⟨⟨by omega, by omega, h.1.2.2⟩, ih (Nat.le_refl _) h.2⟩

/-- Below its lower bound a canonical memory lists nothing. -/
theorem Memory.read_below {lo len a : Nat} {m : Memory} (h : Memory.wfFrom lo len m = true) (ha : a < lo) :
    m.read a = Memory.unlisted := by
  induction m generalizing lo with
  | nil => rfl
  | cons c t ih =>
    obtain ⟨k, v⟩ := c
    rw [Memory.wfFrom_cons] at h
    rw [Memory.read_cons, if_neg (by omega)]
    exact ih h.2 (by omega)

/-- At and above its length a canonical memory lists nothing. -/
theorem Memory.read_beyond {lo len a : Nat} {m : Memory} (h : Memory.wfFrom lo len m = true) (ha : len ≤ a) :
    m.read a = Memory.unlisted := by
  induction m generalizing lo with
  | nil => rfl
  | cons c t ih =>
    obtain ⟨k, v⟩ := c
    rw [Memory.wfFrom_cons] at h
    rw [Memory.read_cons, if_neg (by omega)]
    exact ih h.2

/-- A write leaves every other cell alone, in any memory. -/
theorem Memory.read_write_other (m : Memory) {a b : Nat} (v : Int) (h : b ≠ a) : (m.write a v).read b = m.read b := by
  induction m with
  | nil =>
    unfold Memory.write
    split
    · rfl
    · rw [Memory.read_cons, if_neg (Ne.symm h)]
  | cons c t ih =>
    obtain ⟨k, x⟩ := c
    unfold Memory.write
    split
    · split
      · rfl
      · rw [Memory.read_cons, if_neg (Ne.symm h)]
    · split
      · next hka =>
        subst hka
        split <;> simp [Memory.read_cons, Ne.symm h]
      · simp [Memory.read_cons, ih]

/-- A read after a write to the same cell gives the word written, in a canonical memory. -/
theorem Memory.read_write_same {lo len : Nat} {m : Memory} (h : Memory.wfFrom lo len m = true) (a : Nat) (v : Int) :
    (m.write a v).read a = v := by
  induction m generalizing lo with
  | nil =>
    unfold Memory.write
    split
    · next hv => rw [hv]; rfl
    · rw [Memory.read_cons, if_pos rfl]
  | cons c t ih =>
    obtain ⟨k, x⟩ := c
    have h' := Memory.wfFrom_cons.mp h
    unfold Memory.write
    split
    · next hak =>
      split
      · next hv =>
        rw [hv, Memory.read_cons, if_neg (by omega)]
        exact Memory.read_below h'.2 (by omega)
      · rw [Memory.read_cons, if_pos rfl]
    · split
      · next hka =>
        subst hka
        split
        · next hv => rw [hv]; exact Memory.read_below h'.2 (by omega)
        · rw [Memory.read_cons, if_pos rfl]
      · next hne => rw [Memory.read_cons, if_neg (Ne.symm hne)]; exact ih h'.2

theorem Memory.wfFrom_write {lo len a : Nat} {m : Memory} {v : Int} (h : Memory.wfFrom lo len m = true) (hlo : lo ≤ a)
    (ha : a < len) : Memory.wfFrom lo len (m.write a v) = true := by
  induction m generalizing lo with
  | nil =>
    unfold Memory.write
    split
    · rfl
    · next hv => exact Memory.wfFrom_cons.mpr ⟨⟨hlo, ha, hv⟩, rfl⟩
  | cons c t ih =>
    obtain ⟨k, x⟩ := c
    have h' := Memory.wfFrom_cons.mp h
    unfold Memory.write
    split
    · split
      · exact h
      · next hak hv => exact Memory.wfFrom_cons.mpr ⟨⟨hlo, ha, hv⟩, Memory.wfFrom_cons.mpr ⟨⟨by omega, h'.1.2⟩, h'.2⟩⟩
    · split
      · next hka =>
        subst hka
        split
        · exact Memory.wfFrom_mono (by omega) (Nat.le_refl _) h'.2
        · next hv => exact Memory.wfFrom_cons.mpr ⟨⟨hlo, ha, hv⟩, h'.2⟩
      · exact Memory.wfFrom_cons.mpr ⟨h'.1, ih h'.2 (by omega)⟩

/-- A write inside the memory keeps the canonical form. -/
theorem Memory.wf_write {len a : Nat} {m : Memory} {v : Int} (h : m.wf len = true) (ha : a < len) :
    (m.write a v).wf len = true :=
  Memory.wfFrom_write h (Nat.zero_le a) ha

theorem Memory.wfFrom_ofImageFrom (n : Nat) (image : List Word) :
    Memory.wfFrom n (n + image.length) (Memory.ofImageFrom n image) = true := by
  induction image generalizing n with
  | nil => rfl
  | cons v image ih =>
    have := ih (n + 1)
    rw [show n + 1 + image.length = n + (v :: image).length by simp; omega] at this
    unfold Memory.ofImageFrom
    split
    · exact Memory.wfFrom_mono (Nat.le_succ n) (Nat.le_refl _) this
    · next hv => exact Memory.wfFrom_cons.mpr ⟨⟨Nat.le_refl n, by simp, hv⟩, this⟩

/-- A loaded image is in canonical form. -/
theorem Memory.wf_ofImage (image : List Word) : (Memory.ofImage image).wf image.length = true := by
  have := Memory.wfFrom_ofImageFrom 0 image
  rwa [Nat.zero_add] at this

/-- A sequence of writes inside a memory keeps the canonical form. -/
theorem Memory.wf_writeList {len : Nat} (ws : List Word) {m : Memory} {a : Nat} (h : m.wf len = true)
    (ha : a + ws.length ≤ len) : (m.writeList a ws).wf len = true := by
  induction ws generalizing m a with
  | nil => exact h
  | cons w ws ih =>
    simp only [List.length_cons] at ha
    exact ih (Memory.wf_write h (by omega)) (by omega)

/-- A longer memory length keeps the canonical form. -/
theorem Memory.wf_longer {len len' : Nat} {m : Memory} (hlen : len ≤ len') (h : m.wf len = true) : m.wf len' = true :=
  Memory.wfFrom_mono (Nat.le_refl 0) hlen h

theorem Memory.read_ofImageFrom (n a : Nat) (image : List Word) :
    (Memory.ofImageFrom n image).read (n + a) = image.getD a Memory.unlisted := by
  induction image generalizing n a with
  | nil => simp [Memory.ofImageFrom]
  | cons v image ih =>
    have hwf := Memory.wfFrom_ofImageFrom (n + 1) image
    unfold Memory.ofImageFrom
    cases a with
    | zero =>
      split
      · next hv => simpa [hv] using Memory.read_below hwf (Nat.lt_succ_self n)
      · simp [Memory.read_cons]
    | succ a =>
      have := ih (n + 1) a
      rw [show n + 1 + a = n + (a + 1) by omega] at this
      split
      · simpa using this
      · rw [Memory.read_cons, if_neg (by omega)]; simpa using this

/-- What an image loads: `M[a] = image[a]`. -/
theorem Memory.read_ofImage (a : Nat) (image : List Word) :
    (Memory.ofImage image).read a = image.getD a Memory.unlisted := by
  have := Memory.read_ofImageFrom 0 a image
  rwa [Nat.zero_add] at this

/-- Canonical memories that read alike are equal. -/
theorem Memory.ext_wfFrom {lo len len' : Nat} {m m' : Memory} (h : Memory.wfFrom lo len m = true)
    (h' : Memory.wfFrom lo len' m' = true) (hr : ∀ a, m.read a = m'.read a) : m = m' := by
  induction m generalizing lo m' with
  | nil =>
    cases m' with
    | nil => rfl
    | cons c t =>
      obtain ⟨k, v⟩ := c
      have := hr k
      rw [Memory.read_cons, if_pos rfl] at this
      exact absurd this.symm (Memory.wfFrom_cons.mp h').1.2.2
  | cons c t ih =>
    obtain ⟨k, v⟩ := c
    have hc := Memory.wfFrom_cons.mp h
    cases m' with
    | nil =>
      have := hr k
      rw [Memory.read_cons, if_pos rfl] at this
      exact absurd this hc.1.2.2
    | cons c' t' =>
      obtain ⟨k', v'⟩ := c'
      have hc' := Memory.wfFrom_cons.mp h'
      have hk : k = k' := by
        have h1 := hr k
        have h2 := hr k'
        rw [Memory.read_cons, Memory.read_cons, if_pos rfl] at h1
        rw [Memory.read_cons, Memory.read_cons, if_pos rfl] at h2
        by_contra hne
        rcases Nat.lt_or_gt_of_ne hne with hlt | hgt
        · rw [if_neg (Ne.symm hne), Memory.read_below hc'.2 (by omega)] at h1
          exact hc.1.2.2 h1
        · rw [if_neg hne, Memory.read_below hc.2 (by omega)] at h2
          exact hc'.1.2.2 h2.symm
      subst hk
      have hv : v = v' := by simpa [Memory.read_cons] using hr k
      subst hv
      refine congrArg _ (ih hc.2 hc'.2 fun a => ?_)
      by_cases hak : k = a
      · subst hak
        rw [Memory.read_below hc.2 (by omega), Memory.read_below hc'.2 (by omega)]
      · simpa [Memory.read_cons, hak] using hr a

/-- Equal memories are equal data: two canonical memories of whatever lengths that read alike are the same list. -/
theorem Memory.ext {len len' : Nat} {m m' : Memory} (h : m.wf len = true) (h' : m'.wf len' = true)
    (hr : ∀ a, m.read a = m'.read a) : m = m' :=
  Memory.ext_wfFrom h h' hr

@[simp] theorem Memory.length_slice (m : Memory) (a n : Nat) : (m.slice a n).length = n := by
  induction n generalizing a with
  | zero => rfl
  | succ n ih => simp [Memory.slice, ih]

/-- The words of a slice are the cells it covers. -/
theorem Memory.getElem?_slice (m : Memory) (a : Nat) {n i : Nat} (h : i < n) : (m.slice a n)[i]? = some (m.read (a + i)) := by
  induction n generalizing a i with
  | zero => omega
  | succ n ih =>
    cases i with
    | zero => simp [Memory.slice]
    | succ i =>
      have := ih (a + 1) (i := i) (by omega)
      simpa [Memory.slice, Nat.add_assoc, Nat.add_comm 1 i] using this

/-- A slice is its first cells followed by the rest. -/
theorem Memory.slice_add (m : Memory) (a n k : Nat) : m.slice a (n + k) = m.slice a n ++ m.slice (a + n) k := by
  induction n generalizing a with
  | zero => simp [Memory.slice]
  | succ n ih =>
    rw [show n + 1 + k = n + k + 1 by omega]
    simp [Memory.slice, ih, Nat.add_assoc, Nat.add_comm 1 n]

/-- The memory after reset is in canonical form. -/
theorem State.reset_mem_wf : State.reset.mem.wf State.reset.memLen = true := by decide

/-- Reset is the engine built from the empty image with the hardware's configuration. -/
theorem State.reset_eq_built : State.reset = State.built Config.hardware [] := rfl

end Sys2Proof.Machine
end

