-- ==== Sys2Proof/Laws/Ops.lean ====
section
/-! SUPPORT. One lemma for each shared operation that says once what it can do; every proof about an instruction cites
these and unfolds none of them. -/

namespace Sys2Proof.Machine

variable {s t : State}

/-! ### A check that answers a value or raises -/

theorem check_eq_ok_iff {α : Type} {p : Prop} [Decidable p] {x v : α} {e : Cause} :
    (if p then Except.ok x else Except.error e) = Except.ok v ↔ p ∧ v = x := by
  by_cases h : p
  · simp only [h, if_true, true_and, Except.ok.injEq]; exact eq_comm
  · simp [h]

theorem check_eq_error_iff {α : Type} {p : Prop} [Decidable p] {x : α} {e c : Cause} :
    (if p then Except.ok x else Except.error e) = Except.error c ↔ ¬p ∧ c = e := by
  by_cases h : p
  · simp [h]
  · simp only [h, if_false, not_false_eq_true, true_and, Except.error.injEq]; exact eq_comm

/-! ### The access primitives -/

theorem State.addressInRange_iff (s : State) (a : Int) : s.addressInRange a = true ↔ s.isCell a := by
  simp [State.addressInRange, State.isCell]

theorem State.outside_iff (s : State) (a : Int) : s.outside a ↔ ¬s.isCell a := by
  simp only [State.outside, State.isCell]; omega

theorem State.fetch_eq_ok_iff {a v : Int} : s.fetch a = .ok v ↔ s.isCell a ∧ v = s.cell a.toNat := by
  simp only [State.fetch, State.addressInRange_iff, check_eq_ok_iff]

theorem State.fetch_eq_error_iff {a : Int} {c : Cause} : s.fetch a = .error c ↔ ¬s.isCell a ∧ c = .fetchOob := by
  simp only [State.fetch, State.addressInRange_iff, check_eq_error_iff]

theorem State.memRead_eq_ok_iff {a v : Int} : s.memRead a = .ok v ↔ s.isCell a ∧ v = s.cell a.toNat := by
  simp only [State.memRead, State.addressInRange_iff, check_eq_ok_iff]

theorem State.memRead_eq_error_iff {a : Int} {c : Cause} : s.memRead a = .error c ↔ ¬s.isCell a ∧ c = .readOob := by
  simp only [State.memRead, State.addressInRange_iff, check_eq_error_iff]

theorem State.checkTarget_eq_ok_iff {a : Int} : s.checkTarget a = .ok () ↔ s.isCell a := by
  simp only [State.checkTarget, State.addressInRange_iff, check_eq_ok_iff, and_true]

theorem State.checkTarget_eq_error_iff {a : Int} {c : Cause} :
    s.checkTarget a = .error c ↔ ¬s.isCell a ∧ c = .writeOob := by
  simp only [State.checkTarget, State.addressInRange_iff, check_eq_error_iff]

theorem State.memWrite_eq_ok_iff {a v : Int} : s.memWrite a v = .ok t ↔ s.isCell a ∧ t = s.setCell a.toNat v := by
  unfold State.memWrite
  by_cases h : s.isCell a
  · simp only [State.checkTarget_eq_ok_iff.mpr h, h, true_and, Except.ok.injEq]; exact eq_comm
  · simp [State.checkTarget_eq_error_iff.mpr ⟨h, rfl⟩, h]

theorem State.memWrite_eq_error_iff {a v : Int} {c : Cause} :
    s.memWrite a v = .error c ↔ ¬s.isCell a ∧ c = .writeOob := by
  unfold State.memWrite
  by_cases h : s.isCell a
  · simp [State.checkTarget_eq_ok_iff.mpr h, h]
  · simp only [State.checkTarget_eq_error_iff.mpr ⟨h, rfl⟩, h, not_false_eq_true, true_and, Except.error.injEq]
    exact eq_comm

/-- The written cell and every other one. -/
theorem State.cell_setCell_other (s : State) {a b : Nat} (v : Int) (h : b ≠ a) : (s.setCell a v).cell b = s.cell b :=
  Memory.read_write_other s.mem v h

theorem State.cell_setCell_same {len : Nat} (h : s.mem.wf len = true) (a : Nat) (v : Int) : (s.setCell a v).cell a = v :=
  Memory.read_write_same h a v

/-! ### The operand resolver -/

theorem State.resolve_eq_ok_iff {p v : Int} {m : Mode} : s.resolve p m = .ok v ↔ s.readsAs m p v := by
  cases m with
  | positional => exact State.memRead_eq_ok_iff
  | immediate => simp [State.resolve, State.readsAs, eq_comm]
  | unknown d =>
    simp only [State.resolve, State.readsAs]
    split <;> simp_all [State.memRead_eq_ok_iff]

theorem State.resolve_eq_error_iff {p : Int} {m : Mode} {c : Cause} :
    s.resolve p m = .error c ↔ firstFailure (s.operandTests m p) = some c := by
  cases m with
  | positional =>
    rw [State.resolve, State.memRead_eq_error_iff, ← State.outside_iff]
    simp only [State.operandTests, failsWith]
    by_cases ho : s.outside p
    · simp only [ho, true_and, if_true, firstFailure, Option.some.injEq]; exact eq_comm
    · simp [ho, firstFailure]
  | immediate => simp [State.resolve, State.operandTests, firstFailure]
  | unknown d =>
    simp only [State.resolve, State.operandTests, failsWith]
    cases s.cfg.unknownMode with
    | fault => simp [firstFailure]
    | positional =>
      simp only [State.memRead_eq_error_iff, ← State.outside_iff]
      by_cases ho : s.outside p
      · simp only [ho, true_and, reduceCtorEq, if_true, if_false, firstFailure, Option.some.injEq]; exact eq_comm
      · simp [ho, firstFailure]

theorem State.readsAs_operandValue {p v : Int} {m : Mode} (h : s.readsAs m p v) : s.operandValue m p = v := by
  cases m <;> simp_all [State.readsAs, State.operandValue]

theorem State.readsAs_unique {p v w : Int} {m : Mode} (h : s.readsAs m p v) (h' : s.readsAs m p w) : v = w := by
  rw [← State.readsAs_operandValue h, State.readsAs_operandValue h']

theorem State.resolve2_eq_ok_iff {p1 p2 v1 v2 : Int} {m1 m2 : Mode} :
    s.resolve2 p1 p2 m1 m2 = .ok (v1, v2) ↔ s.readsAs m1 p1 v1 ∧ s.readsAs m2 p2 v2 := by
  rw [← State.resolve_eq_ok_iff, ← State.resolve_eq_ok_iff]
  unfold State.resolve2
  split
  · simp_all
  · split <;> simp_all

/-- The first failure of two lists of tests made one after the other. -/
theorem firstFailure_append (xs ys : List (Option Cause)) :
    firstFailure (xs ++ ys) = (firstFailure xs).or (firstFailure ys) := by
  induction xs with
  | nil => rfl
  | cons x xs ih => cases x <;> simp [firstFailure, ih]

/-- An operand whose tests all pass has its value. -/
theorem State.operandTests_pass_iff {p : Int} {m : Mode} :
    firstFailure (s.operandTests m p) = none ↔ s.readsAs m p (s.operandValue m p) := by
  rw [← State.resolve_eq_ok_iff]
  cases h : s.resolve p m with
  | ok v => simp [State.readsAs_operandValue (State.resolve_eq_ok_iff.mp h), ← Option.not_isSome_iff_eq_none,
      Option.isSome_iff_exists, ← State.resolve_eq_error_iff, h]
  | error c => simp [State.resolve_eq_error_iff.mp h]

/-- Two operands fault with the first failure of their tests. -/
theorem State.resolve2_eq_error_iff {p1 p2 : Int} {m1 m2 : Mode} {c : Cause} :
    s.resolve2 p1 p2 m1 m2 = .error c ↔ firstFailure (s.operandTests m1 p1 ++ s.operandTests m2 p2) = some c := by
  rw [firstFailure_append]
  unfold State.resolve2
  cases h1 : s.resolve p1 m1 with
  | error c1 => simp [State.resolve_eq_error_iff.mp h1]
  | ok v1 =>
    have h1' : firstFailure (s.operandTests m1 p1) = none := by
      rw [State.operandTests_pass_iff, State.readsAs_operandValue (State.resolve_eq_ok_iff.mp h1)]
      exact State.resolve_eq_ok_iff.mp h1
    rw [h1', Option.none_or, ← State.resolve_eq_error_iff]
    cases h2 : s.resolve p2 m2 <;> simp

/-- The causes an operand's tests can fail with. -/
theorem State.operandTests_cause {p : Int} {m : Mode} {c : Cause} (h : firstFailure (s.operandTests m p) = some c) :
    c = .illegalMode ∨ c = .readOob := by
  cases m <;> simp only [State.operandTests, failsWith] at h
  · split at h <;> simp_all [firstFailure]
  · cases h
  · split at h
    · simp_all [firstFailure]
    · split at h <;> simp_all [firstFailure]

/-! ### The shared pseudocode of the instructions -/

/-- All that an F3 instruction can do when it does not fault. -/
theorem State.alu_eq_ok_iff {m1 m2 : Mode} {p1 p2 dst : Int} {f : Int → Int → Except Cause Int} :
    s.alu m1 m2 p1 p2 dst f = .ok t ↔
      ∃ v1 v2 r, s.readsAs m1 p1 v1 ∧ s.readsAs m2 p2 v2 ∧ f v1 v2 = .ok r ∧ s.isCell dst ∧
        t = (s.setCell dst.toNat r).advance 4 := by
  constructor
  · intro h
    unfold State.alu at h
    split at h
    · cases h
    · next v1 v2 hv =>
      split at h
      · cases h
      · next r hr =>
        split at h
        · cases h
        · next u hu =>
          obtain ⟨hc, rfl⟩ := State.memWrite_eq_ok_iff.mp hu
          cases h
          exact ⟨v1, v2, r, (State.resolve2_eq_ok_iff.mp hv).1, (State.resolve2_eq_ok_iff.mp hv).2, hr, hc, rfl⟩
  · rintro ⟨v1, v2, r, h1, h2, hr, hc, rfl⟩
    simp [State.alu, State.resolve2_eq_ok_iff.mpr ⟨h1, h2⟩, hr, State.memWrite_eq_ok_iff.mpr ⟨hc, rfl⟩]

/-- All the ways an F3 instruction can fault: its operands' tests, its own computation, its target. -/
theorem State.alu_eq_error_iff {m1 m2 : Mode} {p1 p2 dst : Int} {f : Int → Int → Except Cause Int} {c : Cause} :
    s.alu m1 m2 p1 p2 dst f = .error c ↔
      s.resolve2 p1 p2 m1 m2 = .error c ∨
        ∃ v1 v2, s.readsAs m1 p1 v1 ∧ s.readsAs m2 p2 v2 ∧
          (f v1 v2 = .error c ∨ ∃ r, f v1 v2 = .ok r ∧ ¬s.isCell dst ∧ c = .writeOob) := by
  unfold State.alu
  cases h : s.resolve2 p1 p2 m1 m2 with
  | error c' =>
    simp only [Except.error.injEq, iff_self_or, forall_exists_index, and_imp]
    intro v1 v2 h1 h2
    rw [State.resolve2_eq_ok_iff.mpr ⟨h1, h2⟩] at h
    cases h
  | ok v =>
    obtain ⟨v1, v2⟩ := v
    obtain ⟨h1, h2⟩ := State.resolve2_eq_ok_iff.mp h
    have only : ∀ {P : Int → Int → Prop},
        (∃ w1 w2, s.readsAs m1 p1 w1 ∧ s.readsAs m2 p2 w2 ∧ P w1 w2) ↔ P v1 v2 := by
      intro P
      constructor
      · rintro ⟨w1, w2, k1, k2, k⟩
        rwa [State.readsAs_unique h1 k1, State.readsAs_unique h2 k2]
      · exact fun k => ⟨v1, v2, h1, h2, k⟩
    rw [only]
    cases hf : f v1 v2 with
    | error c' => simp [hf]
    | ok r =>
      by_cases hc : s.isCell dst
      · simp [hf, State.memWrite_eq_ok_iff.mpr ⟨hc, rfl⟩, hc]
      · simp only [hf, State.memWrite_eq_error_iff.mpr ⟨hc, rfl⟩, hc]
        simp [eq_comm]

/-- All the ways a jump can fault: its operands' tests, and a negative target where it is taken. -/
theorem State.jump_eq_error_iff {m1 m2 : Mode} {p1 p2 : Int} {taken : Int → Bool} {c : Cause} :
    s.jump m1 m2 p1 p2 taken = .error c ↔
      s.resolve2 p1 p2 m1 m2 = .error c ∨
        ∃ v1 v2, s.readsAs m1 p1 v1 ∧ s.readsAs m2 p2 v2 ∧ taken v1 = true ∧ v2 < 0 ∧ c = .badJumpTarget := by
  unfold State.jump
  cases h : s.resolve2 p1 p2 m1 m2 with
  | error c' =>
    simp only [Except.error.injEq, iff_self_or, forall_exists_index, and_imp]
    intro v1 v2 h1 h2
    rw [State.resolve2_eq_ok_iff.mpr ⟨h1, h2⟩] at h
    cases h
  | ok v =>
    obtain ⟨v1, v2⟩ := v
    obtain ⟨h1, h2⟩ := State.resolve2_eq_ok_iff.mp h
    have only : ∀ {P : Int → Int → Prop},
        (∃ w1 w2, s.readsAs m1 p1 w1 ∧ s.readsAs m2 p2 w2 ∧ P w1 w2) ↔ P v1 v2 := by
      intro P
      constructor
      · rintro ⟨w1, w2, k1, k2, k⟩
        rwa [State.readsAs_unique h1 k1, State.readsAs_unique h2 k2]
      · exact fun k => ⟨v1, v2, h1, h2, k⟩
    rw [only]
    unfold checkJumpTarget
    by_cases ht : taken v1 = true
    · by_cases hn : v2 < 0
      · simp only [ht, hn, if_true, true_and, reduceCtorEq, false_or, Except.error.injEq]; exact eq_comm
      · simp [ht, hn]
    · simp [ht]

/-- All that a jump can do when it does not fault. -/
theorem State.jump_eq_ok_iff {m1 m2 : Mode} {p1 p2 : Int} {taken : Int → Bool} :
    s.jump m1 m2 p1 p2 taken = .ok t ↔
      ∃ v1 v2, s.readsAs m1 p1 v1 ∧ s.readsAs m2 p2 v2 ∧
        ((taken v1 = true ∧ 0 ≤ v2 ∧ t = s.setPc v2.toNat) ∨ (taken v1 = false ∧ t = s.advance 3)) := by
  constructor
  · intro h
    unfold State.jump at h
    split at h
    · cases h
    · next v1 v2 hv =>
      obtain ⟨h1, h2⟩ := State.resolve2_eq_ok_iff.mp hv
      refine ⟨v1, v2, h1, h2, ?_⟩
      unfold checkJumpTarget at h
      split at h
      · next ht =>
        split at h
        · cases h
        · next t' ht' =>
          split at ht'
          · cases ht'
          · cases ht'; cases h; exact .inl ⟨ht, by omega, rfl⟩
      · next ht => cases h; exact .inr ⟨by simpa using ht, rfl⟩
  · rintro ⟨v1, v2, h1, h2, ⟨ht, hv, rfl⟩ | ⟨ht, rfl⟩⟩
    · have : ¬v2 < 0 := by omega
      simp [State.jump, State.resolve2_eq_ok_iff.mpr ⟨h1, h2⟩, ht, checkJumpTarget, this]
    · simp [State.jump, State.resolve2_eq_ok_iff.mpr ⟨h1, h2⟩, ht]

theorem checkRange_eq_ok_iff {c : Config} {r v : Int} : checkRange c r = .ok v ↔ c.inRange r = true ∧ v = r := by
  simp only [checkRange, check_eq_ok_iff]

theorem checkRange_eq_error_iff {c : Config} {r : Int} {e : Cause} :
    checkRange c r = .error e ↔ c.inRange r = false ∧ e = .overflow := by
  simp only [checkRange, check_eq_error_iff, Bool.not_eq_true]

/-- All that `input` can do when it does not fault: suspend, or move the oldest value. -/
theorem execInput_cases {dst : Int} (h : execInput dst s = .next t) :
    (¬s.isCell dst ∧ t = s.raise .writeOob) ∨
      (s.isCell dst ∧ s.inq = [] ∧ t = s.suspend) ∨
      ∃ v q, s.isCell dst ∧ s.inq = v :: q ∧ t = ((State.setCell { s with inq := q } dst.toNat v).advance 2) := by
  unfold execInput at h
  by_cases hc : s.isCell dst
  · rw [State.checkTarget_eq_ok_iff.mpr hc] at h
    simp only [State.takeInput] at h
    cases hq : s.inq with
    | nil =>
      simp only [hq, State.commit] at h
      cases h
      exact .inr (.inl ⟨hc, rfl, rfl⟩)
    | cons v q =>
      have hw : State.memWrite { s with inq := q } dst v = .ok (State.setCell { s with inq := q } dst.toNat v) :=
        State.memWrite_eq_ok_iff.mpr ⟨hc, rfl⟩
      simp only [hq, hw, State.commit] at h
      cases h
      exact .inr (.inr ⟨v, q, hc, rfl, rfl⟩)
  · rw [State.checkTarget_eq_error_iff.mpr ⟨hc, rfl⟩] at h
    simp only [State.commit] at h
    cases h
    exact .inl ⟨hc, rfl⟩

theorem State.pushOutput_eq_ok_iff {v : Int} :
    s.pushOutput v = .ok t ↔ s.cfg.outFits (s.outq.length + 1) = true ∧ t = { s with outq := s.outq ++ [v] } := by
  simp only [State.pushOutput, check_eq_ok_iff]

theorem State.pushOutput_eq_error_iff {v : Int} {c : Cause} :
    s.pushOutput v = .error c ↔ s.cfg.outFits (s.outq.length + 1) = false ∧ c = .outputFull := by
  simp only [State.pushOutput, check_eq_error_iff, Bool.not_eq_true]

/-- All that `output` can do: append, or fault with its operand's first failure or a full FIFO. -/
theorem execOutput_cases {m1 : Mode} {a : Int} (h : execOutput m1 a s = .next t) :
    (∃ v, s.readsAs m1 a v ∧ s.cfg.outFits (s.outq.length + 1) = true ∧
        t = { s with outq := s.outq ++ [v], pc := s.pc + 2 }) ∨
      (∃ c, firstFailure (s.operandTests m1 a) = some c ∧ t = s.raise c) ∨
      (∃ v, s.readsAs m1 a v ∧ s.cfg.outFits (s.outq.length + 1) = false ∧ t = s.raise .outputFull) := by
  unfold execOutput at h
  cases hr : s.resolve a m1 with
  | error c =>
    simp only [hr, State.commit] at h
    cases h
    exact .inr (.inl ⟨c, State.resolve_eq_error_iff.mp hr, rfl⟩)
  | ok v =>
    have hv := State.resolve_eq_ok_iff.mp hr
    cases hf : s.cfg.outFits (s.outq.length + 1) with
    | true =>
      simp only [hr, State.pushOutput_eq_ok_iff.mpr ⟨hf, rfl⟩, State.commit] at h
      cases h
      exact .inl ⟨v, hv, rfl, rfl⟩
    | false =>
      simp only [hr, State.pushOutput_eq_error_iff.mpr ⟨hf, rfl⟩, State.commit] at h
      cases h
      exact .inr (.inr ⟨v, hv, rfl, rfl⟩)

/-! ### An instruction's end -/

theorem State.commit_eq_next_iff {r : Except Cause State} :
    s.commit r = .next t ↔ r = .ok t ∨ ∃ c, r = .error c ∧ t = s.raise c := by
  cases r <;> simp [State.commit, eq_comm]

/-- Every instruction ends through `commit`: with a next state always. -/
theorem exec_eq_commit (i : Instr) (s : State) : ∃ r, exec i s = s.commit r := by
  cases i with
  | halt => exact ⟨.ok s.halt, rfl⟩
  | illegal w => exact ⟨.error .illegalOpcode, rfl⟩
  | _ => exact ⟨_, rfl⟩

/-- No instruction stops: `exec` always answers a next state. -/
theorem exec_total (i : Instr) (s : State) : ∃ t, exec i s = .next t := by
  obtain ⟨r, hr⟩ := exec_eq_commit i s
  cases r with
  | ok t => exact ⟨t, hr⟩
  | error c => exact ⟨s.raise c, hr⟩

/-! ### What an instruction can do -/

/-- All that an F3 instruction can do: the store and the advance, or the fault its pseudocode reaches. -/
theorem State.commit_alu_cases {m1 m2 : Mode} {a b dst : Int} {f : Int → Int → Except Cause Int}
    (h : s.commit (s.alu m1 m2 a b dst f) = .next t) :
    (∃ r, f (s.operandValue m1 a) (s.operandValue m2 b) = .ok r ∧ s.readsAs m1 a (s.operandValue m1 a) ∧
        s.readsAs m2 b (s.operandValue m2 b) ∧ s.isCell dst ∧ t = (s.setCell dst.toNat r).advance 4) ∨
      ∃ c, s.alu m1 m2 a b dst f = .error c ∧ t = s.raise c := by
  rw [State.commit_eq_next_iff] at h
  obtain h | h := h
  · obtain ⟨v1, v2, r, h1, h2, hf, hc, rfl⟩ := State.alu_eq_ok_iff.mp h
    rw [State.readsAs_operandValue h1, State.readsAs_operandValue h2]
    exact .inl ⟨r, hf, h1, h2, hc, rfl⟩
  · exact .inr h

/-- All that a jump can do: load `pc`, advance it, or fault. -/
theorem State.commit_jump_cases {m1 m2 : Mode} {a b : Int} {taken : Int → Bool}
    (h : s.commit (s.jump m1 m2 a b taken) = .next t) :
    (s.readsAs m1 a (s.operandValue m1 a) ∧ s.readsAs m2 b (s.operandValue m2 b) ∧
        ((taken (s.operandValue m1 a) = true ∧ 0 ≤ s.operandValue m2 b ∧ t = s.setPc (s.operandValue m2 b).toNat) ∨
          (taken (s.operandValue m1 a) = false ∧ t = s.advance 3))) ∨
      ∃ c, s.jump m1 m2 a b taken = .error c ∧ t = s.raise c := by
  rw [State.commit_eq_next_iff] at h
  obtain h | h := h
  · obtain ⟨v1, v2, h1, h2, ht⟩ := State.jump_eq_ok_iff.mp h
    rw [State.readsAs_operandValue h1, State.readsAs_operandValue h2]
    exact .inl ⟨h1, h2, ht⟩
  · exact .inr h

theorem State.resolve2_cause {p1 p2 : Int} {m1 m2 : Mode} {c : Cause} (h : s.resolve2 p1 p2 m1 m2 = .error c) :
    c = .illegalMode ∨ c = .readOob := by
  rw [State.resolve2_eq_error_iff, firstFailure_append] at h
  cases h1 : firstFailure (s.operandTests m1 p1) with
  | some x => rw [h1] at h; cases h; exact State.operandTests_cause h1
  | none => rw [h1, Option.none_or] at h; exact State.operandTests_cause h

/-- The causes an F3 instruction can raise: its operands', its own computation's, its target's. -/
theorem State.alu_cause {m1 m2 : Mode} {p1 p2 dst : Int} {f : Int → Int → Except Cause Int} {c : Cause}
    (h : s.alu m1 m2 p1 p2 dst f = .error c) :
    c = .illegalMode ∨ c = .readOob ∨ c = .writeOob ∨ ∃ v1 v2, f v1 v2 = .error c := by
  obtain h | ⟨v1, v2, _, _, h | ⟨_, _, _, rfl⟩⟩ := State.alu_eq_error_iff.mp h
  · rcases State.resolve2_cause h with rfl | rfl <;> simp
  · exact .inr (.inr (.inr ⟨v1, v2, h⟩))
  · simp

theorem State.jump_cause {m1 m2 : Mode} {p1 p2 : Int} {taken : Int → Bool} {c : Cause}
    (h : s.jump m1 m2 p1 p2 taken = .error c) : c = .illegalMode ∨ c = .readOob ∨ c = .badJumpTarget := by
  obtain h | ⟨_, _, _, _, _, _, rfl⟩ := State.jump_eq_error_iff.mp h
  · rcases State.resolve2_cause h with rfl | rfl <;> simp
  · simp

/-- The four ends of an instruction: it changes memory, `pc` and the queues and nothing else; it halts; it suspends, an
`input` with a target in memory and no value waiting; or it faults. -/
theorem exec_cases {i : Instr} (h : exec i s = .next t) :
    t = { s with mem := t.mem, pc := t.pc, inq := t.inq, outq := t.outq } ∨ (t = s.halt ∧ i = .halt) ∨
      (t = s.suspend ∧ ∃ dst, i = .input dst ∧ s.isCell dst ∧ s.inq = []) ∨ ∃ c, c ≠ .none ∧ t = s.raise c := by
  have alu : ∀ {m1 m2 a b dst f}, (∀ v1 v2, f v1 v2 ≠ .error .none) → s.commit (s.alu m1 m2 a b dst f) = .next t →
      t = { s with mem := t.mem, pc := t.pc, inq := t.inq, outq := t.outq } ∨ ∃ c, c ≠ .none ∧ t = s.raise c := by
    intro m1 m2 a b dst f hf h
    obtain ⟨r, -, -, -, -, rfl⟩ | ⟨c, hc, rfl⟩ := State.commit_alu_cases h
    · exact .inl rfl
    · refine .inr ⟨c, ?_, rfl⟩
      rintro rfl
      obtain h | h | h | ⟨v1, v2, h⟩ := State.alu_cause hc
      · cases h
      · cases h
      · cases h
      · exact hf v1 v2 h
  have jump : ∀ {m1 m2 a b taken}, s.commit (s.jump m1 m2 a b taken) = .next t →
      t = { s with mem := t.mem, pc := t.pc, inq := t.inq, outq := t.outq } ∨ ∃ c, c ≠ .none ∧ t = s.raise c := by
    intro m1 m2 a b taken h
    obtain ⟨-, -, ⟨-, -, rfl⟩ | ⟨-, rfl⟩⟩ | ⟨c, hc, rfl⟩ := State.commit_jump_cases h
    · exact .inl rfl
    · exact .inl rfl
    · exact .inr ⟨c, by rcases State.jump_cause hc with rfl | rfl | rfl <;> simp, rfl⟩
  have range : ∀ {r}, checkRange s.cfg r ≠ .error .none := fun h => by cases (checkRange_eq_error_iff.mp h).2
  have ends : (t = { s with mem := t.mem, pc := t.pc, inq := t.inq, outq := t.outq } ∨ ∃ c, c ≠ .none ∧ t = s.raise c) →
      t = { s with mem := t.mem, pc := t.pc, inq := t.inq, outq := t.outq } ∨ (t = s.halt ∧ i = .halt) ∨
        (t = s.suspend ∧ ∃ dst, i = .input dst ∧ s.isCell dst ∧ s.inq = []) ∨ ∃ c, c ≠ .none ∧ t = s.raise c :=
    Or.imp_right fun h => .inr (.inr h)
  cases i with
  | halt => cases h; exact .inr (.inl ⟨rfl, rfl⟩)
  | illegal w => cases h; exact ends (.inr ⟨.illegalOpcode, by simp, rfl⟩)
  | input dst =>
    obtain ⟨_, rfl⟩ | ⟨hc, hq, rfl⟩ | ⟨v, q, _, _, rfl⟩ := execInput_cases h
    · exact ends (.inr ⟨.writeOob, by simp, rfl⟩)
    · exact .inr (.inr (.inl ⟨rfl, dst, rfl, hc, hq⟩))
    · exact .inl rfl
  | output m1 a =>
    obtain ⟨v, _, _, rfl⟩ | ⟨c, hc, rfl⟩ | ⟨v, _, _, rfl⟩ := execOutput_cases h
    · exact .inl rfl
    · exact ends (.inr ⟨c, by rcases State.operandTests_cause hc with rfl | rfl <;> simp, rfl⟩)
    · exact ends (.inr ⟨.outputFull, by simp, rfl⟩)
  | jumpIfTrue m1 m2 a b => exact ends (jump h)
  | jumpIfFalse m1 m2 a b => exact ends (jump h)
  | add m1 m2 a b dst => exact ends (alu (fun _ _ => range) h)
  | mul m1 m2 a b dst => exact ends (alu (fun _ _ => range) h)
  | lessThan m1 m2 a b dst => exact ends (alu (fun _ _ h => by cases h) h)
  | equals m1 m2 a b dst => exact ends (alu (fun _ _ h => by cases h) h)

/-! ### Fetching an instruction -/

theorem State.fetchCells_eq_ok {a n : Nat} (h : a + n ≤ s.memLen) : s.fetchCells a n = .ok (s.mem.slice a n) := by
  induction n generalizing a with
  | zero => rfl
  | succ n ih =>
    have hf : s.fetch (a : Int) = .ok (s.cell a) :=
      State.fetch_eq_ok_iff.mpr ⟨⟨by omega, by omega⟩, by simp⟩
    simp [State.fetchCells, hf, ih (a := a + 1) (by omega), Memory.slice, State.cell]

theorem State.fetchCells_eq_error {a n : Nat} (hn : n ≠ 0) (h : s.memLen < a + n) :
    s.fetchCells a n = .error .fetchOob := by
  induction n generalizing a with
  | zero => exact absurd rfl hn
  | succ n ih =>
    by_cases ha : a < s.memLen
    · have hf : s.fetch (a : Int) = .ok (s.cell a) :=
        State.fetch_eq_ok_iff.mpr ⟨⟨by omega, by omega⟩, by simp⟩
      simp [State.fetchCells, hf, ih (a := a + 1) (by omega) (by omega)]
    · have hf : s.fetch (a : Int) = .error .fetchOob :=
        State.fetch_eq_error_iff.mpr ⟨fun hc => by have := hc.2; omega, rfl⟩
      simp [State.fetchCells, hf]

/-- Where the instruction's cells are all there, the fetch is the decoding of them. -/
theorem State.fetchInstr_eq_ok {i : Instr} {rest : List Word} {n : Nat} (hn : s.pc + n ≤ s.memLen)
    (hd : decode (s.mem.slice s.pc n) = .ok (i, rest)) : s.fetchInstr = .ok i := by
  cases n with
  | zero => cases hd
  | succ n =>
    have hf : s.fetch (s.pc : Int) = .ok (s.cell s.pc) :=
      State.fetch_eq_ok_iff.mpr ⟨⟨by omega, by omega⟩, by simp⟩
    rw [Memory.slice] at hd
    have hp := decode_paramCount hd
    have hl := (decode_length hd).2
    simp only [List.length_cons, Memory.length_slice] at hl
    obtain ⟨k, hk⟩ : ∃ k, n = paramCount (s.cell s.pc) + k := ⟨n - paramCount (s.cell s.pc), by
      have : paramCount (s.cell s.pc) ≤ n := by unfold State.cell; omega
      omega⟩
    have hfc : s.fetchCells (s.pc + 1) (paramCount (s.cell s.pc)) = .ok (s.mem.slice (s.pc + 1) (paramCount (s.cell s.pc))) :=
      State.fetchCells_eq_ok (by omega)
    have hd' : ∃ r, decode (s.cell s.pc :: s.mem.slice (s.pc + 1) (paramCount (s.cell s.pc))) = .ok (i, r) := by
      rw [hk, Memory.slice_add] at hd
      obtain ⟨hw, rfl, -⟩ | ⟨op, d1, d2, hs, ha, -⟩ := decode_cases hd
      · exact ⟨_, decode_illegal hw _⟩
      · have hpc : paramCount (s.cell s.pc) = op.nparams := by unfold State.cell; simp [paramCount, hs]
        rw [List.take_append_of_le_length (by simp [hpc])] at ha
        refine ⟨(s.mem.slice (s.pc + 1) (paramCount (s.cell s.pc))).drop op.nparams, ?_⟩
        have hs' : decodeWord (s.cell s.pc) = some (op, d1, d2) := hs
        simp [decode, hs', ha]
    obtain ⟨r, hr⟩ := hd'
    simp [State.fetchInstr, hf, hfc, hr]

/-- The two ways a fetch fails: no instruction word, or a parameter cell missing. -/
theorem State.fetchInstr_eq_error (h : s.memLen < s.pc + 1 + paramCount (s.cell s.pc)) :
    s.fetchInstr = .error .fetchOob := by
  by_cases hp : s.pc < s.memLen
  · have hf : s.fetch (s.pc : Int) = .ok (s.cell s.pc) :=
      State.fetch_eq_ok_iff.mpr ⟨⟨by omega, by omega⟩, by simp⟩
    simp [State.fetchInstr, hf, State.fetchCells_eq_error (s := s) (a := s.pc + 1) (by omega) h]
  · have hf : s.fetch (s.pc : Int) = .error .fetchOob :=
      State.fetch_eq_error_iff.mpr ⟨fun hc => by have := hc.2; omega, rfl⟩
    simp [State.fetchInstr, hf]

/-- As many cells as the word at `pc` asks for decode to some instruction. -/
theorem State.decode_at_pc (s : State) :
    ∃ i rest, decode (s.mem.slice s.pc (1 + paramCount (s.cell s.pc))) = .ok (i, rest) := by
  rw [Nat.add_comm 1, Memory.slice]
  cases hw : decodeWord (s.cell s.pc) with
  | none => exact ⟨_, _, decode_illegal ((decodeWord_eq_none_iff _).mp hw) _⟩
  | some x =>
    obtain ⟨op, d1, d2⟩ := x
    have hpc : paramCount (s.cell s.pc) = op.nparams := by simp [paramCount, hw]
    obtain ⟨i, -, hi⟩ := decode_legal hw (rest := s.mem.slice (s.pc + 1) (paramCount (s.cell s.pc))) (by simp [hpc])
    exact ⟨i, _, hi⟩

/-- All that a fetch can answer: the missing cell, or the instruction the cells hold. -/
theorem State.fetchInstr_cases (s : State) :
    (s.memLen < s.pc + 1 + paramCount (s.cell s.pc) ∧ s.fetchInstr = .error .fetchOob) ∨
      ∃ i rest, s.pc + 1 + paramCount (s.cell s.pc) ≤ s.memLen ∧
        decode (s.mem.slice s.pc (1 + paramCount (s.cell s.pc))) = .ok (i, rest) ∧ s.fetchInstr = .ok i := by
  by_cases h : s.memLen < s.pc + 1 + paramCount (s.cell s.pc)
  · exact .inl ⟨h, State.fetchInstr_eq_error h⟩
  · obtain ⟨i, rest, hd⟩ := State.decode_at_pc s
    exact .inr ⟨i, rest, by omega, hd, State.fetchInstr_eq_ok (by omega) hd⟩

theorem State.fetch_congr (hm : s.mem = t.mem) (hl : s.memLen = t.memLen) (a : Int) : s.fetch a = t.fetch a := by
  unfold State.fetch State.addressInRange State.cell
  rw [hm, hl]

/-- What is fetched depends on memory, MEMLEN and `pc` alone. -/
theorem State.fetchInstr_congr (hm : s.mem = t.mem) (hl : s.memLen = t.memLen) (hp : s.pc = t.pc) :
    s.fetchInstr = t.fetchInstr := by
  have hc : ∀ n a, s.fetchCells a n = t.fetchCells a n := by
    intro n
    induction n with
    | zero => exact fun _ => rfl
    | succ n ih => intro a; rw [State.fetchCells, State.fetchCells, State.fetch_congr hm hl, ih]
  unfold State.fetchInstr
  rw [State.fetch_congr hm hl, hp]
  simp only [hc]

/-- What a fetched instruction tells of memory: all its cells are there, and the four cells from `pc` on decode to it. -/
theorem State.fetchInstr_decode {i : Instr} (h : s.fetchInstr = .ok i) :
    s.pc + i.length ≤ s.memLen ∧ ∃ rest, decode (s.mem.slice s.pc 4) = .ok (i, rest) := by
  obtain ⟨_, h'⟩ | ⟨j, rest, hl, hd, h'⟩ := State.fetchInstr_cases s
  · rw [h'] at h; cases h
  · rw [h'] at h; cases h
    have hp : i.length = 1 + paramCount (s.cell s.pc) := by
      rw [Nat.add_comm 1, Memory.slice] at hd
      exact decode_paramCount hd
    have h4 : i.length ≤ 4 := by cases i <;> simp [Instr.length]
    refine ⟨by omega, rest ++ s.mem.slice (s.pc + (1 + paramCount (s.cell s.pc))) (4 - i.length), ?_⟩
    rw [show 4 = (1 + paramCount (s.cell s.pc)) + (4 - i.length) by omega, Memory.slice_add]
    simpa [hp] using decode_append hd _

/-! ### A step -/

/-- The engine's step never stops. -/
theorem State.engineStep_total (s : State) : ∃ t, s.engineStep = .next t := by
  unfold State.engineStep
  split
  · exact ⟨_, rfl⟩
  · exact exec_total _ s

/-- All that the engine's step can do: fault on a cell it cannot fetch, or execute the instruction at `pc`. -/
theorem State.engineStep_cases (h : s.engineStep = .next t) :
    (s.fetchInstr = .error .fetchOob ∧ t = s.raise .fetchOob) ∨ ∃ i, s.fetchInstr = .ok i ∧ exec i s = .next t := by
  unfold State.engineStep at h
  obtain ⟨_, hf⟩ | ⟨i, _, _, _, hf⟩ := State.fetchInstr_cases s
  · rw [hf] at h; cases h; exact .inl ⟨hf, rfl⟩
  · rw [hf] at h; exact .inr ⟨i, hf, h⟩

/-- The loop of a Runnable engine goes on from its step. -/
theorem State.loop_running (hr : s.state = .runnable) (h : s.engineStep = .next t) (k : Nat) :
    s.loop (k + 1) = t.loop k := by
  rw [State.loop, hr]; simp only [h]

/-- The loop of an engine that is not Runnable ends where it is. -/
theorem State.loop_stopped (h : s.state ≠ .runnable) (k : Nat) : s.loop k = .next s := by
  cases k with
  | zero => rfl
  | succ k => rw [State.loop]; cases hx : s.state <;> simp_all

/-- A run of the machine goes on from its step. -/
theorem core_run_succ (h : step s = .next t) (k : Nat) : Sys2Proof.core.run (k + 1) s = Sys2Proof.core.run k t := by
  have hc : Sys2Proof.core.step s = .next t := h
  exact (Host.Core.run.eq_2 Sys2Proof.core s k).trans (by rw [hc])

/-- A step in a running state is the engine's. -/
theorem step_eq_engineStep (h : s.Running) : step s = s.engineStep := by
  obtain ⟨hr, hb⟩ := h
  simp [step, hr, hb]

/-- A step in a running state that has fetched an instruction is that instruction's meaning. -/
theorem step_eq_exec {i : Instr} (h : s.Running) (hf : s.fetchInstr = .ok i) : step s = exec i s := by
  rw [step_eq_engineStep h, State.engineStep, hf]

/-- A step in an idle state is the host's. -/
theorem step_eq_hostStep (h : s.busy = false) : step s = s.hostStep := by
  unfold step
  split <;> simp_all

/-- All that a step can do: the engine's step while it runs, a host command while it is idle. -/
theorem step_cases (h : step s = .next t) :
    (s.Running ∧ s.engineStep = .next t) ∨
      ∃ cmd rest, s.busy = false ∧ s.hostTodo = cmd :: rest ∧
        t = { (State.command { s with hostTodo := rest } cmd).1 with
              hostReplies := (State.command { s with hostTodo := rest } cmd).1.hostReplies
                ++ [(State.command { s with hostTodo := rest } cmd).2] } := by
  unfold step at h
  split at h
  · next hb hr => exact .inl ⟨⟨hr, hb⟩, h⟩
  · cases h
  · cases h
  · cases h
  · next hb =>
    unfold State.hostStep at h
    split at h
    · cases h
    · next cmd rest ht =>
      cases h
      exact .inr ⟨cmd, rest, hb, ht, rfl⟩

end Sys2Proof.Machine
end

