-- ==== Sys2Proof/Laws/PerInstr.lean ====
section
/-! SUPPORT. A statement for every instruction as syntax: its encoding has the length R60 gives it, and begins with a
word that selects its own row. -/

namespace Sys2Proof.Laws.Encoding

/-- The encoded instruction has the length of R60, its first cell says so to a decoder (R60: "tells the length of an
instruction from `opcode` ... and nothing else"), and its parameters are its own. -/
def Statement (i : Instr) : Prop :=
  ∀ c, i.wellFormed c = true →
    (encode i).length = i.length ∧ ∃ w ps, encode i = w :: ps ∧ 1 + paramCount w = i.length

theorem add (m1 m2 : Mode) (a b dst : Int) : Statement (.add m1 m2 a b dst) := by
  intro c h
  simp only [Instr.wellFormed, Bool.and_eq_true] at h
  exact ⟨rfl, _, _, rfl, by simp [paramCount, decodeWord_canonicalWord, h, Opcode.nparams, Instr.length]⟩

theorem mul (m1 m2 : Mode) (a b dst : Int) : Statement (.mul m1 m2 a b dst) := by
  intro c h
  simp only [Instr.wellFormed, Bool.and_eq_true] at h
  exact ⟨rfl, _, _, rfl, by simp [paramCount, decodeWord_canonicalWord, h, Opcode.nparams, Instr.length]⟩

theorem input (dst : Int) : Statement (.input dst) := by
  intro c _
  exact ⟨rfl, _, _, rfl, rfl⟩

theorem output (m1 : Mode) (a : Int) : Statement (.output m1 a) := by
  intro c h
  simp only [Instr.wellFormed, Bool.and_eq_true] at h
  exact ⟨rfl, _, _, rfl, by
    rw [paramCount, decodeWord_canonicalWord .output h.1 (m2 := .positional) rfl]; rfl⟩

theorem jumpIfTrue (m1 m2 : Mode) (cond target : Int) : Statement (.jumpIfTrue m1 m2 cond target) := by
  intro c h
  simp only [Instr.wellFormed, Bool.and_eq_true] at h
  exact ⟨rfl, _, _, rfl, by simp [paramCount, decodeWord_canonicalWord, h, Opcode.nparams, Instr.length]⟩

theorem jumpIfFalse (m1 m2 : Mode) (cond target : Int) : Statement (.jumpIfFalse m1 m2 cond target) := by
  intro c h
  simp only [Instr.wellFormed, Bool.and_eq_true] at h
  exact ⟨rfl, _, _, rfl, by simp [paramCount, decodeWord_canonicalWord, h, Opcode.nparams, Instr.length]⟩

theorem lessThan (m1 m2 : Mode) (a b dst : Int) : Statement (.lessThan m1 m2 a b dst) := by
  intro c h
  simp only [Instr.wellFormed, Bool.and_eq_true] at h
  exact ⟨rfl, _, _, rfl, by simp [paramCount, decodeWord_canonicalWord, h, Opcode.nparams, Instr.length]⟩

theorem equals (m1 m2 : Mode) (a b dst : Int) : Statement (.equals m1 m2 a b dst) := by
  intro c h
  simp only [Instr.wellFormed, Bool.and_eq_true] at h
  exact ⟨rfl, _, _, rfl, by simp [paramCount, decodeWord_canonicalWord, h, Opcode.nparams, Instr.length]⟩

theorem halt : Statement .halt := by
  intro c _
  exact ⟨rfl, _, _, rfl, by decide⟩

theorem illegal (w : Int) : Statement (.illegal w) := by
  intro c h
  simp only [Instr.wellFormed, Bool.and_eq_true] at h
  exact ⟨rfl, _, _, rfl, by simp [paramCount, (decodeWord_eq_none_iff w).mpr h.1, Instr.length]⟩

end Sys2Proof.Laws.Encoding
end

