-- ==== Sys2Proof/Tests/Slice0.lean ====
section
/-! SUPPORT. Tests of the model: the checks of WellFormed, decodings of words written out from 30_encoding.md, single
steps of 95_test_vectors.md (each named by its vector's id), host commands of its Part 3, and for every statement with
hypotheses a witness that meets them. -/

namespace Sys2Proof.Tests

open Sys2Proof Sys2Proof.Machine

/-- An engine with the image loaded and a run on, as the vectors start ("`construct(image)`", then a step). -/
def running (image : List Word) : State := { State.built Config.hardware image with busy := true }

/-- An engine with the image loaded, idle, and one host command to come. -/
def idle (image : List Word) (cmd : HostCommand) : State :=
  { State.built Config.hardware image with hostTodo := [cmd] }

/-- The next state, where there is one. -/
def next? (o : Host.Outcome State Machine.Fault Refusal) : Option State :=
  match o with
  | .next t    => some t
  | .fault _   => none
  | .refused _ => none

/-- What the single-step tables of the vectors show: memory, `pc`, `state`, `cause`. -/
def shown (t : State) : List Int × Nat × RunState × Cause := (t.mem.slice 0 t.memLen, t.pc, t.state, t.cause)

/-- One step from a state, as the tables show it. -/
def stepShown (s : State) : Option (List Int × Nat × RunState × Cause) := (next? (step s)).map shown

/-! ### WellFormed: an ill-formed term for each check -/

theorem test_wf_accepts :
    (Instr.add (.unknown 9) .immediate (-9223372036854775808) 0 9223372036854775807).wellFormed Config.hardware = true := by
  decide
theorem test_wf_mode_low : (Instr.output (.unknown 1) 0).wellFormed Config.hardware = false := by decide
theorem test_wf_mode_high : (Instr.output (.unknown 10) 0).wellFormed Config.hardware = false := by decide
theorem test_wf_second_mode : (Instr.equals .immediate (.unknown 0) 0 0 0).wellFormed Config.hardware = false := by decide
theorem test_wf_param_high : (Instr.input 9223372036854775808).wellFormed Config.hardware = false := by decide
theorem test_wf_param_low :
    (Instr.mul .immediate .immediate 0 (-9223372036854775809) 0).wellFormed Config.hardware = false := by decide
theorem test_wf_jump_target :
    (Instr.jumpIfTrue .immediate .immediate 0 9223372036854775808).wellFormed Config.hardware = false := by decide
theorem test_wf_illegal_legal_word : (Instr.illegal 1299).wellFormed Config.hardware = false := by decide
theorem test_wf_illegal_out_of_range :
    (Instr.illegal (-9223372036854775809)).wellFormed Config.hardware = false := by decide

/-! ### Decoding: words written out digit by digit from R61 (m2, m1, opcode) and 95_test_vectors.md section 2.1 -/

theorem test_decode_add : decode [1001, 5, 6, 7] = .ok (.add .positional .immediate 5 6 7, []) := by decide
theorem test_decode_mul : decode [102, 3, 4, 4, 33] = .ok (.mul .immediate .positional 3 4 4, [33]) := by decide
theorem test_decode_input : decode [11103, 3] = .ok (.input 3, []) := by decide
theorem test_decode_output : decode [204, 9] = .ok (.output (.unknown 2) 9, []) := by decide
theorem test_decode_jump_if_true : decode [2105, 1, 3] = .ok (.jumpIfTrue .immediate (.unknown 2) 1 3, []) := by decide
theorem test_decode_jump_if_false : decode [1006, 4, 3] = .ok (.jumpIfFalse .positional .immediate 4 3, []) := by decide
theorem test_decode_less_than : decode [1007, 6, 4, 7] = .ok (.lessThan .positional .immediate 6 4 7, []) := by decide
theorem test_decode_equals : decode [108, 8, 0, 0] = .ok (.equals .immediate .positional 8 0 0, []) := by decide
theorem test_decode_halt : decode [1099] = .ok (.halt, []) := by decide
theorem test_decode_illegal : decode [109, 1, 99] = .ok (.illegal 109, [1, 99]) := by decide
theorem test_decode_int_max : decodeWord 9223372036854775807 = some (.lessThan, 8, 5) := by decide
theorem test_decode_high_digits : decodeWord 1234500001 = some (.add, 0, 0) := by decide
theorem test_decode_negative : decodeWord (-1101) = none := by decide
theorem test_encode_mul : encode (.mul .positional .immediate 4 3 4) = [1002, 4, 3, 4] := by decide
theorem test_table_word_add : decodeTableWord 64 1 = some (.add .positional .positional 0 0 0) := by decide
theorem test_table_word_negative : decodeTableWord 64 (2 ^ 64 - 99) = some (.illegal (-99)) := by decide

/-! ### Single steps -/

/-- A6: both sources and the target are the same cell. -/
theorem test_add_A6 : stepShown (running [1, 5, 5, 5, 99, 21]) = some ([1, 5, 5, 5, 99, 42], 4, .runnable, .none) := by
  decide
/-- X7: OVERFLOW before WRITE_OOB. -/
theorem test_add_X7 : stepShown (running [1101, 9223372036854775807, 1, 9, 99])
    = some ([1101, 9223372036854775807, 1, 9, 99], 0, .faulted, .overflow) := by decide
/-- M7: `2^32 * -2^31 = INT_MIN`, in range. -/
theorem test_mul_M7 : stepShown (running [1102, 4294967296, -2147483648, 5, 99, 7])
    = some ([1102, 4294967296, -2147483648, 5, 99, -9223372036854775808], 4, .runnable, .none) := by decide
/-- M4: `INT_MIN * -1` is out of range. -/
theorem test_mul_M4 : stepShown (running [1102, -9223372036854775808, -1, 5, 99, 7])
    = some ([1102, -9223372036854775808, -1, 5, 99, 7], 0, .faulted, .overflow) := by decide
/-- I2: the head is taken, the rest stays. -/
theorem test_input_I2 : (next? (step { running [3, 3, 99, 0] with inq := [42, 43] })).map (fun t => (shown t, t.inq))
    = some (([3, 3, 99, 42], 2, .runnable, .none), [43]) := by decide
/-- I10: a bad target and an empty queue: the fault wins. -/
theorem test_input_I10 : stepShown (running [3, 3, 99]) = some ([3, 3, 99], 0, .faulted, .writeOob) := by decide
/-- O11: the second mode digit is unused and not validated. -/
theorem test_output_O11 : (next? (step (running [2004, 3, 99, 5]))).map (fun t => (t.pc, t.state, t.outq))
    = some (2, .runnable, [5]) := by decide
/-- O13, its second output: the FIFO of depth 1 is full. -/
theorem test_output_O13 :
    (next? (step { running [104, 1, 104, 2, 99] with
      pc := 2, outq := [1], cfg := { Config.hardware with outDepth := some 1 } })).map
        (fun t => (t.pc, t.state, t.cause, t.outq)) = some (2, .faulted, .outputFull, [1]) := by decide
/-- J3: a negative condition is true. -/
theorem test_jump_if_true_J3 : stepShown (running [1105, -3, 2, 99]) = some ([1105, -3, 2, 99], 2, .runnable, .none) := by
  decide
/-- J14: not taken, but the target operand is resolved all the same. -/
theorem test_jump_if_true_J14 : stepShown (running [105, 0, 9, 99]) = some ([105, 0, 9, 99], 0, .faulted, .readOob) := by
  decide
/-- K6: taken, negative target. -/
theorem test_jump_if_false_K6 :
    stepShown (running [1106, 0, -1, 99]) = some ([1106, 0, -1, 99], 0, .faulted, .badJumpTarget) := by decide
/-- K7: not taken, negative target: no fault. -/
theorem test_jump_if_false_K7 :
    stepShown (running [1106, 1, -1, 99]) = some ([1106, 1, -1, 99], 3, .runnable, .none) := by decide
/-- L3: the comparison is strict. -/
theorem test_less_than_L3 :
    stepShown (running [1107, 5, 5, 5, 99, -1]) = some ([1107, 5, 5, 5, 99, 0], 4, .runnable, .none) := by decide
/-- L4: the comparison is signed. -/
theorem test_less_than_L4 :
    stepShown (running [1107, -5, -3, 5, 99, -1]) = some ([1107, -5, -3, 5, 99, 1], 4, .runnable, .none) := by decide
/-- Q6: the result overwrites the instruction's own word. -/
theorem test_equals_Q6 : stepShown (running [108, 8, 0, 0, 99]) = some ([0, 8, 0, 0, 99], 4, .runnable, .none) := by
  decide
/-- Q11: parameter 2's address is `MEMLEN`. -/
theorem test_equals_Q11 : stepShown (running [8, 0, 5, 0, 99]) = some ([8, 0, 5, 0, 99], 0, .faulted, .readOob) := by
  decide
/-- H4: all upper digits are ignored on `halt`. -/
theorem test_halt_H4 : stepShown (running [55599]) = some ([55599], 0, .halted, .none) := by decide
/-- H5: a halt in the last cell: no parameter is fetched. -/
theorem test_halt_H5 :
    stepShown { running [1101, 0, 0, 0, 99] with pc := 4 } = some ([1101, 0, 0, 0, 99], 4, .halted, .none) := by decide
/-- X12: a negative word whose parameters would be missing. -/
theorem test_illegal_X12 : stepShown (running [-1]) = some ([-1], 0, .faulted, .illegalOpcode) := by decide
/-- H10: opcode 0 with a mode digit. -/
theorem test_illegal_H10 : stepShown (running [100]) = some ([100], 0, .faulted, .illegalOpcode) := by decide
/-- H16: the parameter fetch fails before the mode is looked at. -/
theorem test_step_H16 :
    stepShown (running [9223372036854775807]) = some ([9223372036854775807], 0, .faulted, .fetchOob) := by decide
/-- H21: the empty image. -/
theorem test_step_H21 : stepShown (running []) = some ([], 0, .faulted, .fetchOob) := by decide
/-- The word of `add` placed where reset's next step fetches runs as the first instruction: `M[0] + M[0] = 1 + 1`
goes to `M[0]`, as in the source's scenario 1 (T1). -/
theorem test_fetch_word_add :
    stepShown (State.reset.withFetchWord 64 1) = some ([2, 0, 0, 0], 4, .runnable, .none) := by decide

/-! ### Host commands -/

/-- HS2, last line and the line before the second run: `construct` empties the input queue, `reset_memory` does not. -/
theorem test_host_HS2 :
    (State.command { State.built Config.hardware [99] with inq := [1, 2, 3], pc := 4, state := .halted, outq := [5] }
        (.resetMemory [3, 5, 3, 6, 99, 0, 0])).1
      = { State.built Config.hardware [3, 5, 3, 6, 99, 0, 0] with inq := [1, 2, 3] } ∧
    (State.command { State.built Config.hardware [99] with inq := [3], pc := 4, state := .halted }
        (.construct [99])).1 = State.built Config.hardware [99] := by decide
/-- HS4, with IN_DEPTH 1: the second value is refused and the queue stays. -/
theorem test_host_HS4 :
    State.command { State.built { Config.hardware with inDepth := some 1 } [99] with inq := [1] } (.addInput 2)
      = ({ State.built { Config.hardware with inDepth := some 1 } [99] with inq := [1] }, .refused) := by decide
/-- HS1, second line: `run` does not continue a suspend. -/
theorem test_host_HS1 :
    State.command { State.built Config.hardware [3, 0, 4, 0, 99] with state := .suspended } .run
      = ({ State.built Config.hardware [3, 0, 4, 0, 99] with state := .suspended }, .done) := by decide

/-! ### Witnesses: for every statement with hypotheses, a state and operands that meet them -/

/-- Five cells: an add of the words 9 and -9 to cell 4, which is the last. -/
def sample : State := running [1101, 9, -9, 4, 99]

/-- The same with the largest and the smallest word in cells 1 and 2. -/
def extremes : State := running [1, 9223372036854775807, -9223372036854775808, 4, 99]

/-- The configuration of the lenient unknown-mode policy. -/
def lenient : Config := { Config.hardware with unknownMode := .positional }

theorem witness_DecodeOfEncode :
    (Instr.equals (.unknown 9) (.unknown 2) (-9223372036854775808) 9223372036854775807 (-1)).wellFormed Config.hardware = true ∧
      (Instr.illegal (-1)).wellFormed Config.hardware = true ∧
      (Instr.illegal 100).wellFormed Config.documentExact = true := by decide

theorem witness_DecodeFollowsDigits :
    (running [98]).Running ∧ (running [98]).pc < (running [98]).memLen ∧ decodeWord ((running [98]).cell 0) = none ∧
      decodeWord ((running [-1]).cell 0) = none ∧ decodeWord ((running [100]).cell 0) = none ∧
      decodeWord ((running [9]).cell 0) = none :=
  ⟨⟨rfl, rfl⟩, by decide, by decide, by decide, by decide, by decide⟩

theorem witness_IllegalWordsFault_illegal :
    (running [9]).Running ∧ (running [9]).pc < (running [9]).memLen ∧ (running [9]).opcodeAtPc = 9 ∧
      (running [98]).opcodeAtPc = 98 ∧ (running [100]).opcodeAtPc = 0 ∧ (running [-1]).cell (running [-1]).pc < 0 :=
  ⟨⟨rfl, rfl⟩, by decide, by decide, by decide, by decide, by decide⟩

theorem witness_IllegalWordsFault_legal :
    (running [8]).Running ∧ (running [8]).pc < (running [8]).memLen ∧
      ¬((running [8]).cell (running [8]).pc < 0 ∨ (running [8]).opcodeAtPc = 0 ∨
        (9 ≤ (running [8]).opcodeAtPc ∧ (running [8]).opcodeAtPc ≤ 98)) ∧
      ∃ t, step (running [8]) = .next t ∧ t.state = .faulted :=
  ⟨⟨rfl, rfl⟩, by decide, by decide, _, rfl, rfl⟩

theorem witness_CanonicalWordIsLeast :
    isIllegalWord 21101 = false ∧
      decode [21101, 3, 4, 0, 99] = .ok (.add .immediate .immediate 3 4 0, [99]) := by decide

theorem witness_IgnoredDigitsChangeNothing :
    isIllegalWord 1299 = false ∧ (0 < 10 ∧ 9 < 10) ∧ (Mode.unknown 9).wellFormed = true ∧ Mode.immediate.wellFormed = true := by
  decide

theorem witness_WriteThenRead :
    sample.mem.wf sample.memLen = true ∧ ¬sample.isCell (-1) ∧ ¬sample.isCell 5 ∧ sample.isCell 0 ∧ sample.isCell 4 := by
  unfold State.isCell; decide

theorem witness_ResolveByMode :
    (2 ≤ 2 ∧ 2 ≤ 9) ∧ (2 ≤ 9 ∧ 9 ≤ 9) ∧ sample.cfg.unknownMode = .fault ∧ lenient.unknownMode ≠ .fault := by decide

/-- Readable operands in every mode, an exact sum at the top of the range, a target in the last cell. -/
theorem witness_AddWritesExactSum :
    extremes.readsAs .positional 1 9223372036854775807 ∧ extremes.readsAs .immediate 0 0 ∧
      State.readsAs { extremes with cfg := lenient } (.unknown 9) 1 9223372036854775807 ∧
      extremes.cfg.inRange (9223372036854775807 + 0) = true ∧ extremes.isCell 4 :=
  ⟨⟨⟨by decide, by decide⟩, by decide⟩, rfl, ⟨rfl, ⟨by decide, by decide⟩, by decide⟩, by decide, ⟨by decide, by decide⟩⟩

theorem witness_MulWritesExactProduct :
    extremes.readsAs .positional 2 (-9223372036854775808) ∧ extremes.readsAs .immediate 1 1 ∧
      extremes.cfg.inRange (-9223372036854775808 * 1) = true ∧ extremes.isCell 0 :=
  ⟨⟨⟨by decide, by decide⟩, by decide⟩, rfl, by decide, ⟨by decide, by decide⟩⟩

theorem witness_LessThanWritesTruth :
    extremes.readsAs .positional 2 (-9223372036854775808) ∧ extremes.readsAs .positional 1 9223372036854775807 ∧
      extremes.isCell 4 :=
  ⟨⟨⟨by decide, by decide⟩, by decide⟩, ⟨⟨by decide, by decide⟩, by decide⟩, ⟨by decide, by decide⟩⟩

theorem witness_EqualsWritesTruth :
    sample.readsAs .positional 4 99 ∧ sample.readsAs .immediate 99 99 ∧ sample.isCell 4 :=
  ⟨⟨⟨by decide, by decide⟩, by decide⟩, rfl, ⟨by decide, by decide⟩⟩

/-- A sum one above, and a product one above, the largest word. -/
theorem witness_ArithmeticOverflowFaults :
    (extremes.readsAs .positional 1 9223372036854775807 ∧ extremes.readsAs .immediate 1 1 ∧
      extremes.cfg.inRange (9223372036854775807 + 1) = false) ∧
    (extremes.readsAs .positional 2 (-9223372036854775808) ∧ extremes.readsAs .immediate (-1) (-1) ∧
      extremes.cfg.inRange (-9223372036854775808 * -1) = false) :=
  ⟨⟨⟨⟨by decide, by decide⟩, by decide⟩, rfl, by decide⟩, ⟨⟨⟨by decide, by decide⟩, by decide⟩, rfl, by decide⟩⟩

theorem witness_ModeIndependence :
    isKnownMode .positional ∧ isKnownMode .immediate ∧ sample.Safe ∧
      (∃ t, exec (.add .positional .immediate 1 2 4) sample = .next t ∧ t.Safe) ∧
      (∃ t, exec (.mul .positional .immediate 1 2 4) sample = .next t ∧ t.Safe) ∧
      (∃ t, exec (.lessThan .immediate .positional 1 2 4) sample = .next t ∧ t.Safe) ∧
      (∃ t, exec (.equals .immediate .positional 1 2 4) sample = .next t ∧ t.Safe) :=
  ⟨trivial, trivial, nofun, ⟨_, rfl, nofun⟩, ⟨_, rfl, nofun⟩, ⟨_, rfl, nofun⟩, ⟨_, rfl, nofun⟩⟩

/-- Each of the four completes in `sample`, and faults on a target outside memory. -/
theorem witness_AluFrame :
    (∃ t, exec (.add .positional .immediate 1 2 4) sample = .next t ∧ t.state = .runnable) ∧
      (∃ t, exec (.mul .positional .immediate 1 2 4) sample = .next t ∧ t.state = .runnable) ∧
      (∃ t, exec (.lessThan .positional .immediate 1 2 4) sample = .next t ∧ t.state = .runnable) ∧
      (∃ t, exec (.equals .positional .immediate 1 2 4) sample = .next t ∧ t.state = .runnable) ∧
      (∃ t, exec (.equals .positional .immediate 1 2 5) sample = .next t ∧ t.state = .faulted) :=
  ⟨⟨_, rfl, rfl⟩, ⟨_, rfl, rfl⟩, ⟨_, rfl, rfl⟩, ⟨_, rfl, rfl⟩, ⟨_, rfl, rfl⟩⟩

theorem witness_InputTakesOldest :
    State.isCell { sample with inq := [7, 8] } 4 ∧ ({ sample with inq := [7, 8] } : State).inq = 7 :: [8] :=
  ⟨⟨by decide, by decide⟩, rfl⟩

theorem witness_InputSuspendsOnEmptyQueue : sample.isCell 0 ∧ sample.inq = [] := ⟨⟨by decide, by decide⟩, rfl⟩

theorem witness_InputBadTargetFaults : (-1 : Int) < 0 ∧ (sample.memLen : Int) ≤ 5 := by decide

theorem witness_InputFrame :
    (∃ t, exec (.input 4) { sample with inq := [7] } = .next t ∧ t.state = .runnable) ∧
      (∃ t, exec (.input 4) sample = .next t ∧ t.state = .suspended) ∧
      (∃ t, exec (.input 5) sample = .next t ∧ t.state = .faulted) :=
  ⟨⟨_, rfl, rfl⟩, ⟨_, rfl, rfl⟩, ⟨_, rfl, rfl⟩⟩

/-- Room for exactly one word in a FIFO of depth 1. -/
theorem witness_OutputAppends :
    State.readsAs { sample with cfg := { Config.hardware with outDepth := some 1 } } .positional 4 99 ∧
      ({ Config.hardware with outDepth := some 1 } : Config).outFits (sample.outq.length + 1) = true :=
  ⟨⟨⟨by decide, by decide⟩, by decide⟩, by decide⟩

theorem witness_OutputFrame :
    (∃ t, exec (.output .positional 4) sample = .next t ∧ t.outq = [99]) ∧
      (∃ t, exec (.output .positional 5) sample = .next t ∧ t.state = .faulted) :=
  ⟨⟨_, rfl, rfl⟩, ⟨_, rfl, rfl⟩⟩

theorem witness_SuspendResumeRoundTrip :
    (running [3, 2, 0]).Running ∧ (running [3, 2, 0]).fetchInstr = .ok (.input 2) ∧ (running [3, 2, 0]).isCell 2 ∧
      (running [3, 2, 0]).inq = [] ∧ (running [3, 2, 0]).cfg.inRange 99 = true ∧
      (running [3, 2, 0]).cfg.inFits 1 = true :=
  ⟨⟨rfl, rfl⟩, rfl, ⟨by decide, by decide⟩, rfl, by decide, by decide⟩

/-- A negative condition with the target 0, and the condition 0 with a negative target. -/
theorem witness_JumpIfTrueTwoWay :
    (sample.readsAs .positional 2 (-9) ∧ sample.readsAs .immediate 0 0 ∧ (-9 : Int) ≠ 0 ∧ (0 : Int) ≤ 0) ∧
      (sample.readsAs .immediate 0 0 ∧ sample.readsAs .positional 2 (-9)) :=
  ⟨⟨⟨⟨by decide, by decide⟩, by decide⟩, rfl, by decide, by decide⟩, rfl, ⟨⟨by decide, by decide⟩, by decide⟩⟩

theorem witness_JumpIfFalseTwoWay :
    (sample.readsAs .immediate 0 0 ∧ sample.readsAs .positional 4 99 ∧ (0 : Int) = 0 ∧ (0 : Int) ≤ 99) ∧
      (sample.readsAs .immediate 1 1 ∧ sample.readsAs .positional 2 (-9) ∧ (1 : Int) ≠ 0) :=
  ⟨⟨rfl, ⟨⟨by decide, by decide⟩, by decide⟩, by decide, by decide⟩, rfl, ⟨⟨by decide, by decide⟩, by decide⟩, by decide⟩

/-- Taken with the target -1; taken with the target MEMLEN; not taken: for both jumps. -/
theorem witness_JumpTargetsAreChecked :
    sample.readsAs .immediate 1 1 ∧ sample.readsAs .immediate (-1) (-1) ∧ sample.readsAs .immediate 5 5 ∧
      ((Instr.jumpIfTrue .immediate .immediate 1 5 = .jumpIfTrue .immediate .immediate 1 5) ∧ (True ↔ (1 : Int) ≠ 0)) ∧
      ((Instr.jumpIfFalse .immediate .immediate 1 5 = .jumpIfFalse .immediate .immediate 1 5) ∧ (False ↔ (1 : Int) = 0)) ∧
      (-1 : Int) < 0 ∧ (sample.memLen : Int) ≤ 5 ∧ State.Running { sample with pc := 5 } :=
  ⟨rfl, rfl, rfl, ⟨rfl, by decide⟩, ⟨rfl, by decide⟩, by decide, by decide, rfl, rfl⟩

theorem witness_JumpFrame :
    (∃ t, exec (.jumpIfTrue .immediate .immediate 1 0) sample = .next t ∧ t.state = .runnable) ∧
      (∃ t, exec (.jumpIfFalse .immediate .immediate 1 0) sample = .next t ∧ t.state = .runnable) ∧
      (∃ t, exec (.jumpIfFalse .immediate .immediate 0 (-1)) sample = .next t ∧ t.state = .faulted) :=
  ⟨⟨_, rfl, rfl⟩, ⟨_, rfl, rfl⟩, ⟨_, rfl, rfl⟩⟩

/-- The halt word in the last cell. -/
theorem witness_HaltStops :
    (0 ≤ (55599 : Int) ∧ (55599 : Int).toNat % 100 = 99) ∧
      State.Running { sample with pc := 4 } ∧ 4 < sample.memLen ∧ 0 ≤ sample.cell 4 ∧
      State.opcodeAtPc { sample with pc := 4 } = 99 :=
  ⟨by decide, ⟨rfl, rfl⟩, by decide, by decide, by decide⟩

/-- The instruction's cells end where memory does. -/
theorem witness_StepRunsDecodedInstruction :
    (running [1101, 9, -9, 0]).Running ∧ (running [1101, 9, -9, 0]).pc + 4 ≤ (running [1101, 9, -9, 0]).memLen ∧
      decode ((running [1101, 9, -9, 0]).mem.slice 0 4) = .ok (.add .immediate .immediate 9 (-9) 0, []) :=
  ⟨⟨rfl, rfl⟩, by decide, by decide⟩

/-- Each cause is some state's first failure (95_test_vectors.md section 2.11), and some state has none. -/
theorem witness_FirstFailingTestDecides :
    sample.Running ∧ firstFailure sample.stepTests = none ∧ firstFailure (running [3, 1]).stepTests = none ∧
      firstFailure (running [2201, 9, 9, 9, 99]).stepTests = some .illegalMode ∧
      firstFailure (running [2001, 9, 0, 0, 99]).stepTests = some .readOob ∧
      firstFailure (running [1101, 9223372036854775807, 1, 9, 99]).stepTests = some .overflow ∧
      firstFailure (running [1, 0, 0]).stepTests = some .fetchOob ∧
      firstFailure (running [3, 9]).stepTests = some .writeOob ∧
      firstFailure (running [-1]).stepTests = some .illegalOpcode ∧
      firstFailure (running [1105, 1, -1]).stepTests = some .badJumpTarget :=
  ⟨⟨rfl, rfl⟩, by decide, by decide, by decide, by decide, by decide, by decide, by decide, by decide, by decide⟩

theorem witness_RunningStepHasFourOutcomes : sample.Running := ⟨rfl, rfl⟩

/-- A step that changes a cell, one that takes an input, one that adds an output, a halt and a suspend. -/
theorem witness_StepChangesByOpcode :
    (∃ t, step sample = .next t ∧ t.cell 4 ≠ sample.cell 4) ∧
      (∃ t, step { running [3, 1] with inq := [5] } = .next t ∧ t.inq = []) ∧
      (∃ t, step (running [104, 5]) = .next t ∧ t.outq = [5]) ∧
      (∃ t, step (running [99]) = .next t ∧ t.state = .halted) ∧
      (∃ t, step (running [3, 1]) = .next t ∧ t.state = .suspended) :=
  ⟨⟨_, rfl, by decide⟩, ⟨_, rfl, rfl⟩, ⟨_, rfl, rfl⟩, ⟨_, rfl, rfl⟩, ⟨_, rfl, rfl⟩⟩

theorem witness_PcAfterEachInstruction :
    sample.Safe ∧ (∃ t, exec (.jumpIfTrue .immediate .positional 1 4) sample = .next t ∧ t.pc = 99) ∧
      (∃ t, exec (.input 5) sample = .next t ∧ t.state = .faulted) :=
  ⟨nofun, ⟨_, rfl, rfl⟩, ⟨_, rfl, rfl⟩⟩

theorem witness_CausesByInstruction :
    sample.Safe ∧ ∃ t, exec (.add (.unknown 2) .immediate 0 0 0) sample = .next t ∧ t.state = .faulted :=
  ⟨nofun, _, rfl, rfl⟩

/-- An instruction with a store, and one without. -/
theorem witness_InstructionStoresExactly :
    sample.Safe ∧
      (∃ t, exec (.add .immediate .immediate 9 (-9) 4) sample = .next t ∧ t.Safe ∧
        sample.storeOf (.add .immediate .immediate 9 (-9) 4) = some (4, 0)) ∧
      (∃ t, exec .halt sample = .next t ∧ t.Safe ∧ sample.storeOf .halt = none) :=
  ⟨nofun, ⟨_, rfl, nofun, rfl⟩, ⟨_, rfl, nofun, rfl⟩⟩

/-- The word stored at the next `pc` is illegal (0), and, in the second clause, a halt (A8). -/
theorem witness_StoreSeenByNextFetch :
    sample.mem.wf sample.memLen = true ∧ sample.Running ∧
      (∃ t, exec (.add .immediate .immediate 9 (-9) 4) sample = .next t ∧ t.Running ∧
        sample.storeOf (.add .immediate .immediate 9 (-9) 4) = some (4, 0) ∧ (4 : Int) = t.pc ∧ isIllegalWord 0 = true) ∧
      (∃ t, exec (.add .immediate .immediate 98 1 4) sample = .next t ∧ t.Running ∧
        sample.storeOf (.add .immediate .immediate 98 1 4) = some (4, 99) ∧ (4 : Int) = t.pc) :=
  ⟨by decide, ⟨rfl, rfl⟩, ⟨_, rfl, ⟨rfl, rfl⟩, by decide, rfl, by decide⟩, ⟨_, rfl, ⟨rfl, rfl⟩, by decide, rfl⟩⟩

theorem witness_StateTransitions :
    (∃ t, step sample = .next t ∧ t.state = .runnable) ∧ (∃ t, step (running [99]) = .next t ∧ t.state = .halted) ∧
      (∃ t, step (running [3, 1]) = .next t ∧ t.state = .suspended) ∧
      (∃ t, step (running [0]) = .next t ∧ t.state = .faulted) ∧
      (∃ t, step { idle [98] (.resetMemory [99]) with state := .faulted } = .next t ∧ t.state = .runnable) ∧
      (∃ t, step { idle [98] .run with state := .faulted } = .next t ∧ t.state = .faulted) ∧
      (∃ t, step { idle [3, 1] .resume with state := .suspended } = .next t ∧ t.state = .runnable) ∧
      (∃ u reply, hostMove Config.hardware none (.construct [99]) = (some u, reply)) :=
  ⟨⟨_, rfl, rfl⟩, ⟨_, rfl, rfl⟩, ⟨_, rfl, rfl⟩, ⟨_, rfl, rfl⟩, ⟨_, rfl, rfl⟩, ⟨_, rfl, rfl⟩, ⟨_, rfl, rfl⟩, ⟨_, _, rfl⟩⟩

theorem witness_MemoryLengthFixed :
    (∃ t, exec .halt sample = .next t) ∧ (∃ t, step sample = .next t) ∧ sample.busy = true ∧
      (∃ t, step (idle [99] (.construct [1, 2])) = .next t ∧ t.memLen = 2) ∧ (idle [99] (.construct [1, 2])).busy = false :=
  ⟨⟨_, rfl⟩, ⟨_, rfl⟩, rfl, ⟨_, rfl, rfl⟩, rfl⟩

theorem witness_RunPreserves :
    sample.cause = .none ∧ ∃ t, sample.loop 1 = .next t ∧ t.state ≠ .faulted := ⟨rfl, _, rfl, nofun⟩

theorem witness_LoopIsRepeatedSteps : sample.Running := ⟨rfl, rfl⟩

/-- A run that suspends after one step, is fed 5, and halts after two more. -/
theorem witness_SuspendIsInvisible :
    (running [3, 3, 99, 0]).Running ∧ ∃ t r, (running [3, 3, 99, 0]).loop 1 = .next t ∧ t.state = .suspended ∧
      (t.command (.setInputs [5])).2 = .done ∧
      (((t.command (.setInputs [5])).1.command .resume).1).loop 2 = .next r ∧ r.state = .halted :=
  ⟨⟨rfl, rfl⟩, _, _, rfl, rfl, rfl, rfl, rfl⟩

theorem witness_DocumentExactRefines :
    sample.cfg.unknownMode = .fault ∧ ∃ t, sample.loop 1 = .next t ∧ t.Safe := ⟨rfl, _, rfl, nofun⟩

theorem witness_LenientPolicyAgrees :
    sample.cfg.unknownMode = .fault ∧ ∃ t, sample.loop 1 = .next t ∧ t.Safe := ⟨rfl, _, rfl, nofun⟩

/-- A sum no finite word holds, in the document-exact instance. -/
theorem witness_UnboundedInstanceNeverFills :
    State.Running { extremes with cfg := Config.documentExact } ∧ extremes.cause = .none ∧
      (∃ t, step { extremes with cfg := Config.documentExact } = .next t) ∧
      Config.documentExact.width = none ∧ Config.documentExact.outDepth = none :=
  ⟨⟨rfl, rfl⟩, rfl, ⟨_, rfl⟩, rfl, rfl⟩

/-- A running step, an idle step that gives no cause, one that gives it, and a stuck state. -/
theorem witness_CauseNeverInfluences :
    (∃ t, step sample = .next t) ∧ (∃ t, step (idle [99] .run) = .next t) ∧
      (∃ t, step (idle [99] .faultCause) = .next t ∧ t.hostReplies = [.cause .none]) ∧
      step { sample with state := .faulted } = .fault .stepUndefined :=
  ⟨⟨_, rfl⟩, ⟨_, rfl⟩, ⟨_, rfl, rfl⟩, rfl⟩

/-- A running engine at a halt word meets the invariant. -/
theorem running_halt_inv : (running [99]).Inv where
  cfgAdmissible := by decide
  memCanonical  := by decide
  memLenFits    := by decide
  cellsInRange  := fun a => by
    show Config.hardware.inRange (Memory.read [(0, 99)] a) = true
    rw [Memory.read_cons]
    split
    · decide
    · exact (by decide : Config.hardware.inRange 0 = true)
  inqInRange    := nofun
  outqInRange   := nofun
  pcInRange     := by decide
  causeNone     := ⟨fun _ => nofun, fun _ => rfl⟩
  suspendedAt   := nofun
  haltedAt      := nofun
  inqFits       := rfl
  outqFits      := rfl
  busyRunnable  := fun _ => rfl

/-- An idle engine with a command to come meets it too. -/
theorem idle_run_inv : (idle [99] .run).Inv where
  cfgAdmissible := by decide
  memCanonical  := by decide
  memLenFits    := by decide
  cellsInRange  := running_halt_inv.cellsInRange
  inqInRange    := nofun
  outqInRange   := nofun
  pcInRange     := by decide
  causeNone     := ⟨fun _ => nofun, fun _ => rfl⟩
  suspendedAt   := nofun
  haltedAt      := nofun
  inqFits       := rfl
  outqFits      := rfl
  busyRunnable  := nofun

theorem witness_EveryStepKeepsInv :
    ((running [99]).Inv ∧ ∃ t, step (running [99]) = .next t) ∧
      ((idle [99] .run).Inv ∧ ∃ t, step (idle [99] .run) = .next t) :=
  ⟨⟨running_halt_inv, _, rfl⟩, idle_run_inv, _, rfl⟩

/-- The narrowest width with an image of its two extreme words, and the unbounded one. -/
theorem witness_BuiltEngineMeetsInv :
    (({ width := some 8, memCap := some 2, inDepth := some 1, outDepth := none, unknownMode := .fault } : Config).admissible
        = true ∧
      imageAccepted { width := some 8, memCap := some 2, inDepth := some 1, outDepth := none, unknownMode := .fault }
        [127, -128] = true) ∧
    (Config.documentExact.admissible = true ∧ imageAccepted Config.documentExact [9223372036854775808] = true) := by
  decide

theorem witness_OnlyIdlenessStops : (running [99]).Inv ∧ (idle [99] .run).Inv := ⟨running_halt_inv, idle_run_inv⟩

theorem witness_InputCommands : sample.cfg.inDepth = none := rfl

/-- An image accepted, and images refused for a word out of range, for their length, and for a busy engine. -/
theorem witness_ConstructLoadsImage :
    (idle [] .run).accepts (.construct [9223372036854775807]) = true ∧
      (idle [] .run).accepts (.construct [9223372036854775808]) = false ∧
      sample.accepts (.construct []) = false ∧
      ({ Config.hardware with memCap := some 1 } : Config).memFits 2 = false ∧
      (Config.hardware.memFits 1 = true ∧ ∀ v ∈ [(99 : Int)], Config.hardware.inRange v = true) := by decide

theorem witness_ResetMemoryKeepsInput :
    (idle [] .run).accepts (.resetMemory [-9223372036854775808]) = true ∧
      (idle [] .run).accepts (.resetMemory [-9223372036854775809]) = false ∧ sample.accepts (.resetMemory []) = false := by
  decide

/-- An idle step gives `run` and starts the run; one that gives `set_inputs` queues the values; both keep the answer. -/
theorem test_host_step :
    (next? (step (idle [99] .run))).map (fun t => (t.busy, t.hostTodo, t.hostReplies)) = some (true, [], [.done]) ∧
      (next? (step (idle [99] (.setInputs [4, 5])))).map (fun t => (t.inq, t.hostTodo, t.hostReplies))
        = some ([4, 5], [], [.done]) := by decide

theorem witness_HostStepRunAndResume :
    (idle [99] .run).busy = false ∧ (idle [99] .run).hostTodo = HostCommand.run :: [] := ⟨rfl, rfl⟩

theorem witness_ObservationsChangeNothing :
    (idle [99] .run).busy = false ∧ ∀ image, HostCommand.setInputs [1] ≠ .construct image ∧
      HostCommand.setInputs [1] ≠ .resetMemory image := ⟨rfl, fun _ => ⟨nofun, nofun⟩⟩

theorem witness_BusyRefusesCommands : sample.busy = true ∧ ∃ t, step sample = .next t := ⟨rfl, _, rfl⟩

/-- Faulted and busy; Faulted and idle, with a command that does nothing and with a load. -/
theorem witness_FaultedIsTerminal :
    ((sample.raise .overflow).state = .faulted ∧ (sample.raise .overflow).busy = false ∧
      ({ sample with state := .faulted } : State).busy = true) ∧
    (∃ t, step { idle [98] .run with state := .faulted, cause := .illegalOpcode } = .next t ∧ t.state = .faulted) ∧
    (∃ t, step { idle [98] (.construct [99]) with state := .faulted, cause := .illegalOpcode } = .next t ∧
      t.state = .runnable) :=
  ⟨⟨rfl, rfl, rfl⟩, ⟨_, rfl, rfl⟩, ⟨_, rfl, rfl⟩⟩

theorem witness_HaltedIsTerminal :
    (sample.halt.state = .halted ∧ sample.halt.busy = false) ∧
    (∃ t, step { idle [99] .resume with state := .halted } = .next t ∧ t.state = .halted) ∧
    (∃ t, step { idle [99] (.resetMemory [99]) with state := .halted } = .next t ∧ t.state = .runnable) :=
  ⟨⟨rfl, rfl⟩, ⟨_, rfl, rfl⟩, ⟨_, rfl, rfl⟩⟩

theorem witness_UnconstructedAcceptsOnlyConstruct : ∀ image, HostCommand.readPc ≠ .construct image := fun _ => nofun

end Sys2Proof.Tests
end

/-! The program counter after each instruction (10_state.md R23). -/

namespace Sys2Proof.Machine

/-- R23, opcodes 1, 2, 7 and 8: one row, since they share their pseudocode. -/
theorem State.commit_alu_pc {s t : State} {m1 m2 : Mode} {a b dst : Int} {f : Int → Int → Except Cause Int}
    (hs : s.Safe) (h : s.commit (s.alu m1 m2 a b dst f) = .next t) :
    t.pc = if t.state = .faulted then s.pc else s.pc + 4 := by
  obtain ⟨r, -, -, -, -, rfl⟩ | ⟨c, -, rfl⟩ := State.commit_alu_cases h
  · exact (if_neg hs).symm
  · exact (if_pos rfl).symm

/-- R23, opcode 3: an empty queue suspends at the same `pc`. -/
theorem execInput_pc {s t : State} {dst : Int} (hs : s.Safe) (h : execInput dst s = .next t) :
    t.pc = if t.state = .faulted then s.pc else if s.inq = [] then s.pc else s.pc + 2 := by
  obtain ⟨-, rfl⟩ | ⟨-, hq, rfl⟩ | ⟨v, q, -, hq, rfl⟩ := execInput_cases h
  · exact (if_pos rfl).symm
  · simp [hq]
  · exact ((if_neg hs).trans (if_neg (by simp [hq]))).symm

/-- R23, opcode 4. -/
theorem execOutput_pc {s t : State} {m1 : Mode} {a : Int} (hs : s.Safe) (h : execOutput m1 a s = .next t) :
    t.pc = if t.state = .faulted then s.pc else s.pc + 2 := by
  obtain ⟨v, -, -, rfl⟩ | ⟨c, -, rfl⟩ | ⟨v, -, -, rfl⟩ := execOutput_cases h
  · exact (if_neg hs).symm
  · exact (if_pos rfl).symm
  · exact (if_pos rfl).symm

/-- R23, opcodes 5 and 6: one row but for the condition under which the jump is taken. -/
theorem State.commit_jump_pc {s t : State} {m1 m2 : Mode} {a b : Int} {taken : Int → Bool}
    (hs : s.Safe) (h : s.commit (s.jump m1 m2 a b taken) = .next t) :
    t.pc = if t.state = .faulted then s.pc
      else if taken (s.operandValue m1 a) = true then (s.operandValue m2 b).toNat else s.pc + 3 := by
  obtain ⟨-, -, ⟨ht, -, rfl⟩ | ⟨ht, rfl⟩⟩ | ⟨c, -, rfl⟩ := State.commit_jump_cases h
  · exact ((if_neg hs).trans (if_pos ht)).symm
  · exact ((if_neg hs).trans (if_neg (by simp [ht]))).symm
  · exact (if_pos rfl).symm

/-- Settles O34, one row of R23 per instruction. -/
theorem pcAfterEachInstruction : Obligations.PcAfterEachInstruction := by
  intro s t i hs h
  cases i with
  | add m1 m2 a b dst => exact State.commit_alu_pc hs h
  | mul m1 m2 a b dst => exact State.commit_alu_pc hs h
  | input dst => exact execInput_pc hs h
  | output m1 a => exact execOutput_pc hs h
  | jumpIfTrue m1 m2 cond target => simpa only [decide_eq_true_eq] using State.commit_jump_pc hs h
  | jumpIfFalse m1 m2 cond target => simpa only [decide_eq_true_eq] using State.commit_jump_pc hs h
  | lessThan m1 m2 a b dst => exact State.commit_alu_pc hs h
  | equals m1 m2 a b dst => exact State.commit_alu_pc hs h
  | halt => cases h; exact (ite_self _).symm
  | illegal w => cases h; exact (ite_self _).symm

end Sys2Proof.Machine

/-! MEMLEN is fixed from one load to the next (20_memory.md R41). -/

namespace Sys2Proof.Machine

/-- None of the four ends of an instruction touches MEMLEN. -/
theorem exec_memLen {s t : State} {i : Instr} (h : exec i s = .next t) : t.memLen = s.memLen := by
  obtain ht | ⟨rfl, -⟩ | ⟨rfl, -⟩ | ⟨c, -, rfl⟩ := exec_cases h
  · rw [ht]
  · exact State.halt_memLen s
  · exact State.suspend_memLen s
  · exact State.raise_memLen s c

theorem State.engineStep_memLen {s t : State} (h : s.engineStep = .next t) : t.memLen = s.memLen := by
  obtain ⟨-, rfl⟩ | ⟨i, -, hi⟩ := State.engineStep_cases h
  · exact State.raise_memLen s _
  · exact exec_memLen hi

/-- The two loads set MEMLEN; every other command's effect leaves it. -/
theorem State.hostEffect_memLen (s : State) (cmd : HostCommand) :
    (s.hostEffect cmd).memLen = s.memLen ∨
      ∃ image, (cmd = .construct image ∨ cmd = .resetMemory image) ∧ (s.hostEffect cmd).memLen = image.length := by
  cases cmd with
  | construct image => exact .inr ⟨image, .inl rfl, State.construct_memLen s image⟩
  | resetMemory image => exact .inr ⟨image, .inr rfl, State.resetMemory_memLen s image⟩
  | run => exact .inl (State.startRun_memLen s)
  | resume => exact .inl (State.resumeRun_memLen s)
  | _ => exact .inl rfl

theorem State.imageAccepted_of_accepts {s : State} {cmd : HostCommand} {image : List Word}
    (hload : cmd = .construct image ∨ cmd = .resetMemory image) (h : s.accepts cmd = true) :
    imageAccepted s.cfg image = true := by
  have hargs : s.argsAccepted cmd = true := (Bool.and_eq_true_iff.mp h).2
  obtain rfl | rfl := hload <;> exact hargs

/-- A command keeps MEMLEN, unless it is a load that is accepted. -/
theorem State.command_memLen (s : State) (cmd : HostCommand) :
    (s.command cmd).1.memLen = s.memLen ∨
      ∃ image, (cmd = .construct image ∨ cmd = .resetMemory image) ∧ imageAccepted s.cfg image = true ∧
        (s.command cmd).1.memLen = image.length := by
  unfold State.command
  split
  · next haccepts =>
    obtain hkeep | ⟨image, hload, hlen⟩ := State.hostEffect_memLen s cmd
    · exact .inl hkeep
    · exact .inr ⟨image, hload, State.imageAccepted_of_accepts hload haccepts, hlen⟩
  · exact .inl rfl

/-- Settles O39: no end of an instruction touches MEMLEN, and of the host's commands only an accepted load does. -/
theorem memoryLengthFixed : Obligations.MemoryLengthFixed := by
  refine ⟨fun s t i => exec_memLen, fun s t h hbusy => ?_, fun s t h hidle => ?_⟩
  · obtain ⟨-, hengine⟩ | ⟨_, _, hidle, -⟩ := step_cases h
    · exact State.engineStep_memLen hengine
    · simp [hbusy] at hidle
  · obtain ⟨⟨-, hbusy⟩, -⟩ | ⟨cmd, rest, -, htodo, rfl⟩ := step_cases h
    · simp [hidle] at hbusy
    · obtain hkeep | ⟨image, hload, haccepted, hlen⟩ := State.command_memLen { s with hostTodo := rest } cmd
      · exact .inl hkeep
      · refine .inr ⟨image, rest, ?_, haccepted, hlen⟩
        obtain rfl | rfl := hload
        · exact .inl htodo
        · exact .inr htodo

end Sys2Proof.Machine

/-! Legal and illegal instruction words (30_encoding.md R62, R69, R74): the decoder's account of them and the step's. -/

namespace Sys2Proof

/-- R62 and R69 in the terms of the word's sign and its low two decimal digits. -/
theorem isIllegalWord_iff (w : Int) :
    isIllegalWord w = true ↔ w < 0 ∨ w.toNat % 100 = 0 ∨ (9 ≤ w.toNat % 100 ∧ w.toNat % 100 ≤ 98) := by
  simp [isIllegalWord, or_assoc]

/-- R69 by the opcode values that are left: what is neither 0 nor 9 to 98 is a row of R68. -/
theorem isIllegalWord_iff_not_mem (w : Int) :
    isIllegalWord w = true ↔ w < 0 ∨ w.toNat % 100 ∉ [1, 2, 3, 4, 5, 6, 7, 8, 99] := by
  have hlt : w.toNat % 100 < 100 := Nat.mod_lt _ (by decide)
  rw [isIllegalWord_iff]
  simp only [List.mem_cons, List.not_mem_nil, or_false]
  omega

theorem assemble_ne_illegal (op : Opcode) (m1 m2 : Mode) (ps : List Word) (w : Word) :
    assemble op m1 m2 ps ≠ some (.illegal w) := by
  unfold assemble
  split <;> simp

/-- Only an illegal word decodes to `illegal`. -/
theorem isIllegalWord_of_decode {w v : Int} {ps rest : List Word} (h : decode (w :: ps) = .ok (.illegal v, rest)) :
    isIllegalWord w = true := by
  obtain ⟨hw, -, -⟩ | ⟨op, d1, d2, -, ha, -⟩ := decode_cases h
  · exact hw
  · exact absurd ha (assemble_ne_illegal op _ _ _ v)

/-- R74's table of `nparams`, by opcode value. -/
theorem Opcode.nparams_eq (op : Opcode) : op.nparams =
    if op.value ∈ [1, 2, 7, 8] then 3 else if op.value ∈ [3, 4] then 1 else if op.value ∈ [5, 6] then 2 else 0 := by
  cases op <;> rfl

theorem Opcode.value_mem (op : Opcode) : op.value ∈ [1, 2, 3, 4, 5, 6, 7, 8, 99] := by
  cases op <;> decide

end Sys2Proof

namespace Sys2Proof.Machine

variable {s t : State}

/-! ### The causes of R173 -/

/-- A fault of an F3 instruction: its operands', its target's, or one its own computation can raise. -/
theorem State.commit_alu_cause {m1 m2 : Mode} {a b dst : Int} {f : Int → Int → Except Cause Int} {cs : List Cause}
    (hf : ∀ v1 v2 c, f v1 v2 = .error c → c ∈ cs) (hs : s.Safe) (h : s.commit (s.alu m1 m2 a b dst f) = .next t)
    (ht : t.state = .faulted) : t.cause ∈ [Cause.illegalMode, .readOob, .writeOob] ++ cs := by
  obtain ⟨r, -, -, -, -, rfl⟩ | ⟨c, hc, rfl⟩ := State.commit_alu_cases h
  · exact absurd ht hs
  · obtain rfl | rfl | rfl | ⟨v1, v2, hv⟩ := State.alu_cause hc
    · simp
    · simp
    · simp
    · exact List.mem_append_right _ (hf v1 v2 c hv)

theorem checkRange_cause {cfg : Config} {r : Int} {c : Cause} (h : checkRange cfg r = .error c) :
    c ∈ [Cause.overflow] :=
  List.mem_singleton.mpr (checkRange_eq_error_iff.mp h).2

theorem State.commit_jump_cause {m1 m2 : Mode} {a b : Int} {taken : Int → Bool} (hs : s.Safe)
    (h : s.commit (s.jump m1 m2 a b taken) = .next t) (ht : t.state = .faulted) :
    t.cause ∈ [Cause.illegalMode, .readOob, .badJumpTarget] := by
  obtain ⟨-, -, ⟨-, -, rfl⟩ | ⟨-, rfl⟩⟩ | ⟨c, hc, rfl⟩ := State.commit_jump_cases h
  · exact absurd ht hs
  · exact absurd ht hs
  · simpa using State.jump_cause hc

theorem execInput_cause {dst : Int} (hs : s.Safe) (h : execInput dst s = .next t) (ht : t.state = .faulted) :
    t.cause = .writeOob := by
  obtain ⟨-, rfl⟩ | ⟨-, -, rfl⟩ | ⟨v, q, -, -, rfl⟩ := execInput_cases h
  · rfl
  · cases ht
  · exact absurd ht hs

theorem execOutput_cause {m1 : Mode} {a : Int} (hs : s.Safe) (h : execOutput m1 a s = .next t)
    (ht : t.state = .faulted) : t.cause ∈ [Cause.illegalMode, .readOob, .outputFull] := by
  obtain ⟨v, -, -, rfl⟩ | ⟨c, hc, rfl⟩ | ⟨v, -, -, rfl⟩ := execOutput_cases h
  · exact absurd ht hs
  · obtain rfl | rfl := State.operandTests_cause hc <;> simp
  · simp

/-- An instruction that faults records a cause of its row of R173. -/
theorem canRaise_of_exec {i : Instr} (hs : s.Safe) (h : exec i s = .next t) (ht : t.state = .faulted) :
    canRaise i t.cause = true := by
  cases i with
  | add m1 m2 a b dst => exact decide_eq_true (State.commit_alu_cause (fun _ _ _ => checkRange_cause) hs h ht)
  | mul m1 m2 a b dst => exact decide_eq_true (State.commit_alu_cause (fun _ _ _ => checkRange_cause) hs h ht)
  | input dst => exact decide_eq_true (execInput_cause hs h ht)
  | output m1 a => exact decide_eq_true (execOutput_cause hs h ht)
  | jumpIfTrue m1 m2 cond target => exact decide_eq_true (State.commit_jump_cause hs h ht)
  | jumpIfFalse m1 m2 cond target => exact decide_eq_true (State.commit_jump_cause hs h ht)
  | lessThan m1 m2 a b dst =>
    exact decide_eq_true (State.commit_alu_cause (cs := []) (fun _ _ _ hc => by cases hc) hs h ht)
  | equals m1 m2 a b dst =>
    exact decide_eq_true (State.commit_alu_cause (cs := []) (fun _ _ _ hc => by cases hc) hs h ht)
  | halt => cases h; cases ht
  | illegal w => cases h; rfl

/-- ILLEGAL_OPCODE stands in one row of R173 alone. -/
theorem canRaise_illegalOpcode {i : Instr} (h : canRaise i .illegalOpcode = true) : ∃ w, i = .illegal w := by
  cases i with
  | illegal w => exact ⟨w, rfl⟩
  | _ => simp [canRaise] at h

/-! ### The step at an illegal word and at a legal one -/

theorem State.Running.safe (h : s.Running) : s.Safe := by
  simp [State.Safe, h.1]

/-- R62: the one cell of an illegal word is all the step looks at. -/
theorem step_of_isIllegalWord (hr : s.Running) (hp : s.pc < s.memLen) (hw : isIllegalWord (s.cell s.pc) = true) :
    step s = .next (s.raise .illegalOpcode) := by
  have hd : decode (s.mem.slice s.pc 1) = .ok (.illegal (s.cell s.pc), []) := decode_illegal hw []
  exact step_eq_exec hr (State.fetchInstr_eq_ok hp hd)

/-- A step that ends with ILLEGAL_OPCODE was at an illegal word: a missing cell has another cause, and of the
instructions only `illegal` raises it. -/
theorem isIllegalWord_of_step (hr : s.Running) (h : step s = .next t) (ht : t.state = .faulted)
    (hc : t.cause = .illegalOpcode) : isIllegalWord (s.cell s.pc) = true := by
  rw [step_eq_engineStep hr] at h
  obtain ⟨-, rfl⟩ | ⟨i, hf, hi⟩ := State.engineStep_cases h
  · cases hc
  · obtain ⟨w, rfl⟩ := canRaise_illegalOpcode (hc ▸ canRaise_of_exec hr.safe hi ht)
    obtain ⟨-, rest, hd⟩ := State.fetchInstr_decode hf
    exact isIllegalWord_of_decode hd

/-- Settles O3: the decoder's two laws with R69 turned into the rows of R68, and the step at a word it refuses. -/
theorem decodeFollowsDigits : Obligations.DecodeFollowsDigits := by
  refine ⟨fun w => ?_, decodeWord_eq_some_iff, Opcode.nparams_eq, Opcode.value_mem, fun s hr hp hw => ?_⟩
  · rw [decodeWord_eq_none_iff, isIllegalWord_iff_not_mem]
  · exact step_of_isIllegalWord hr hp ((decodeWord_eq_none_iff _).mp hw)

/-- Settles O4: the step at an illegal word raises at once, and no other word leads to that cause. -/
theorem illegalWordsFault : Obligations.IllegalWordsFault := by
  intro s hr hp
  unfold State.opcodeAtPc
  rw [← isIllegalWord_iff]
  exact ⟨step_of_isIllegalWord hr hp, fun hlegal t h ht hc => hlegal (isIllegalWord_of_step hr h ht hc)⟩

end Sys2Proof.Machine

/-! Jump targets (42_jump.md R102): what a jump with readable operands does with its target, and the step after it. -/

namespace Sys2Proof.Machine

variable {s : State} {m1 m2 : Mode} {cond target v1 v2 : Int} {taken : Int → Bool}

/-! ### A jump whose operands are readable -/

theorem State.commit_jump_taken (h1 : s.readsAs m1 cond v1) (h2 : s.readsAs m2 target v2) (ht : taken v1 = true)
    (hv : 0 ≤ v2) : s.commit (s.jump m1 m2 cond target taken) = .next (s.setPc v2.toNat) :=
  State.commit_eq_next_iff.mpr (.inl (State.jump_eq_ok_iff.mpr ⟨v1, v2, h1, h2, .inl ⟨ht, hv, rfl⟩⟩))

theorem State.commit_jump_not_taken (h1 : s.readsAs m1 cond v1) (h2 : s.readsAs m2 target v2)
    (ht : taken v1 = false) : s.commit (s.jump m1 m2 cond target taken) = .next (s.advance 3) :=
  State.commit_eq_next_iff.mpr (.inl (State.jump_eq_ok_iff.mpr ⟨v1, v2, h1, h2, .inr ⟨ht, rfl⟩⟩))

theorem State.commit_jump_negative (h1 : s.readsAs m1 cond v1) (h2 : s.readsAs m2 target v2) (ht : taken v1 = true)
    (hv : v2 < 0) : s.commit (s.jump m1 m2 cond target taken) = .next (s.raise .badJumpTarget) :=
  State.commit_eq_next_iff.mpr
    (.inr ⟨_, State.jump_eq_error_iff.mpr (.inr ⟨v1, v2, h1, h2, ht, hv, rfl⟩), rfl⟩)

/-- The two jumps share their pseudocode; they differ in the condition values that take them. -/
theorem exec_jump_eq_commit {i : Instr} {p : Prop}
    (hi : (i = .jumpIfTrue m1 m2 cond target ∧ (p ↔ v1 ≠ 0)) ∨ (i = .jumpIfFalse m1 m2 cond target ∧ (p ↔ v1 = 0))) :
    ∃ taken : Int → Bool, (taken v1 = true ↔ p) ∧ exec i s = s.commit (s.jump m1 m2 cond target taken) := by
  obtain ⟨rfl, hp⟩ | ⟨rfl, hp⟩ := hi
  · exact ⟨fun v => decide (v ≠ 0), decide_eq_true_iff.trans hp.symm, rfl⟩
  · exact ⟨fun v => decide (v = 0), decide_eq_true_iff.trans hp.symm, rfl⟩

/-! ### The step beyond the end of memory -/

/-- With `pc` at or beyond MEMLEN there is no instruction word to fetch. -/
theorem step_of_memLen_le_pc (hr : s.Running) (hp : s.memLen ≤ s.pc) : step s = .next (s.raise .fetchOob) := by
  have hfetch : s.fetchInstr = .error .fetchOob := State.fetchInstr_eq_error (by omega)
  simp only [step_eq_engineStep hr, State.engineStep, hfetch, State.commit]

/-- Settles O26: a taken jump loads any target that is not negative, and one beyond memory is the next step's fault. -/
theorem jumpTargetsAreChecked : Obligations.JumpTargetsAreChecked := by
  intro s m1 m2 cond target v1 v2 i p h1 h2 hi
  obtain ⟨taken, htaken, hexec⟩ := exec_jump_eq_commit (s := s) hi
  rw [hexec]
  refine ⟨fun hp hneg => ?_, fun hp hbeyond => ?_, fun hp => ?_⟩
  · exact State.commit_jump_negative h1 h2 (htaken.mpr hp) hneg
  · have hjump := State.commit_jump_taken h1 h2 (htaken.mpr hp) (by omega)
    refine ⟨s.setPc v2.toNat, hjump, rfl, fun hr => step_of_memLen_le_pc hr ?_⟩
    rw [State.setPc_memLen, State.setPc_pc]
    omega
  · exact State.commit_jump_not_taken h1 h2 (Bool.eq_false_iff.mpr (mt htaken.mp hp))

end Sys2Proof.Machine

/-! The transitions of `state` (45_execution_loop.md R138): where a halt and a suspend stand, and which commands make
an engine Runnable. -/

namespace Sys2Proof

theorem assemble_eq_halt {op : Opcode} {m1 m2 : Mode} {ps : List Word} (h : assemble op m1 m2 ps = some .halt) :
    op = .halt := by
  unfold assemble at h
  split at h <;> cases h
  rfl

theorem assemble_eq_input {op : Opcode} {m1 m2 : Mode} {ps : List Word} {dst : Word}
    (h : assemble op m1 m2 ps = some (.input dst)) : op = .input ∧ ps = [dst] := by
  unfold assemble at h
  split at h <;> cases h
  exact ⟨rfl, rfl⟩

/-- R68: `halt` is read from words with opcode 99 only. -/
theorem opcode_of_decode_halt {w : Int} {ps rest : List Word} (h : decode (w :: ps) = .ok (.halt, rest)) :
    0 ≤ w ∧ w.toNat % 100 = 99 := by
  obtain ⟨-, hi, -⟩ | ⟨op, d1, d2, hw, ha, -⟩ := decode_cases h
  · cases hi
  · obtain rfl := assemble_eq_halt ha
    obtain ⟨hnonneg, hop, -, -⟩ := (decodeWord_eq_some_iff _ _ _ _).mp hw
    exact ⟨hnonneg, hop⟩

/-- R68: `input` is read from words with opcode 3 only, its target from the cell after the word. -/
theorem opcode_of_decode_input {w p dst : Int} {ps rest : List Word}
    (h : decode (w :: p :: ps) = .ok (.input dst, rest)) : 0 ≤ w ∧ w.toNat % 100 = 3 ∧ p = dst := by
  obtain ⟨-, hi, -⟩ | ⟨op, d1, d2, hw, ha, -⟩ := decode_cases h
  · cases hi
  · obtain ⟨rfl, hps⟩ := assemble_eq_input ha
    obtain ⟨hnonneg, hop, -, -⟩ := (decodeWord_eq_some_iff _ _ _ _).mp hw
    exact ⟨hnonneg, hop, List.head_eq_of_cons_eq hps⟩

end Sys2Proof

namespace Sys2Proof.Machine

variable {s t : State}

/-! ### The engine's rows -/

theorem State.atHalt_of_fetchInstr (h : s.fetchInstr = .ok .halt) : s.AtHalt := by
  obtain ⟨hlen, rest, hd⟩ := State.fetchInstr_decode h
  exact ⟨hlen, opcode_of_decode_halt hd⟩

theorem State.atInput_of_fetchInstr {dst : Int} (h : s.fetchInstr = .ok (.input dst)) (hdst : s.isCell dst) :
    s.AtInput := by
  obtain ⟨hlen, rest, hd⟩ := State.fetchInstr_decode h
  obtain ⟨hnonneg, hop, rfl⟩ := opcode_of_decode_input hd
  exact ⟨hlen, hnonneg, hop, hdst⟩

/-- The engine's four rows of R138, each end with where the step stood. -/
theorem State.engineStep_transition (hr : s.state = .runnable) (h : s.engineStep = .next t) :
    t.state = .runnable ∨ (t.state = .halted ∧ s.AtHalt) ∨ (t.state = .suspended ∧ s.AtInput ∧ s.inq = []) ∨
      (t.state = .faulted ∧ t.cause ≠ .none) := by
  obtain ⟨-, rfl⟩ | ⟨i, hf, hi⟩ := State.engineStep_cases h
  · exact .inr (.inr (.inr ⟨rfl, nofun⟩))
  · obtain ht | ⟨rfl, rfl⟩ | ⟨rfl, dst, rfl, hdst, hq⟩ | ⟨c, hc, rfl⟩ := exec_cases hi
    · exact .inl ((congrArg State.state ht).trans hr)
    · exact .inr (.inl ⟨rfl, State.atHalt_of_fetchInstr hf⟩)
    · exact .inr (.inr (.inl ⟨rfl, State.atInput_of_fetchInstr hf hdst, hq⟩))
    · exact .inr (.inr (.inr ⟨rfl, hc⟩))

/-! ### The host's rows -/

theorem State.resumeRun_state (s : State) :
    s.resumeRun.state = if s.state = .suspended then .runnable else s.state := by
  cases hs : s.state <;> simp [State.resumeRun_eq, hs]

theorem State.hostEffect_state {cmd : HostCommand} (h : s.accepts cmd = true) :
    (s.hostEffect cmd).state = if s.becomesRunnable cmd = true then .runnable else s.state := by
  cases cmd with
  | construct image => exact (if_pos (State.imageAccepted_of_accepts (.inl rfl) h)).symm
  | resetMemory image => exact (if_pos (State.imageAccepted_of_accepts (.inr rfl) h)).symm
  | run => exact State.startRun_state s
  | resume => simpa only [State.hostEffect, State.becomesRunnable, decide_eq_true_eq] using State.resumeRun_state s
  | _ => rfl

/-- An idle engine refuses none of the commands `becomesRunnable` names. -/
theorem State.accepts_of_becomesRunnable {cmd : HostCommand} (hidle : s.busy = false)
    (h : s.becomesRunnable cmd = true) : s.accepts cmd = true := by
  have hargs : s.argsAccepted cmd = true := by
    cases cmd with
    | construct image => exact h
    | resetMemory image => exact h
    | resume => rfl
    | _ => cases h
  simp only [State.accepts, hidle, hargs, Bool.not_false, Bool.and_self]

theorem State.command_state {cmd : HostCommand} (hidle : s.busy = false) :
    (s.command cmd).1.state = if s.becomesRunnable cmd = true then .runnable else s.state := by
  unfold State.command
  split
  · next haccepts => exact State.hostEffect_state haccepts
  · next hrefused => exact (if_neg (mt (State.accepts_of_becomesRunnable hidle) hrefused)).symm

/-- R138's first row where no engine exists yet. -/
theorem hostMove_none_eq_some {c : Config} {cmd : HostCommand} {reply : HostReply}
    (h : hostMove c none cmd = (some t, reply)) : ∃ image, cmd = .construct image ∧ t = State.built c image := by
  cases cmd with
  | construct image =>
    simp only [hostMove] at h
    split at h
    · cases h; exact ⟨image, rfl, rfl⟩
    · cases h
  | _ => cases h

/-- Settles O38: the engine's rows by the end of its instruction, the host's by the command, the first by `hostMove`. -/
theorem stateTransitions : Obligations.StateTransitions := by
  refine ⟨fun s t h => ?_, fun c cmd u reply h => ?_⟩
  · obtain ⟨hr, hengine⟩ | ⟨cmd, rest, hidle, htodo, rfl⟩ := step_cases h
    · refine .inl ⟨hr, ?_⟩
      obtain hgo | ⟨hhalt, -, -, hop⟩ | ⟨hsuspend, ⟨-, -, hop, hdst⟩, hq⟩ | hfault :=
        State.engineStep_transition hr.1 hengine
      · exact .inl hgo
      · exact .inr (.inl ⟨hhalt, hop⟩)
      · exact .inr (.inr (.inl ⟨hsuspend, hop, hdst, hq⟩))
      · exact .inr (.inr (.inr hfault))
    · exact .inr ⟨hidle, cmd, rest, htodo, State.command_state (s := { s with hostTodo := rest }) hidle⟩
  · obtain ⟨image, rfl, rfl⟩ := hostMove_none_eq_some h
    exact ⟨⟨image, rfl⟩, rfl⟩

end Sys2Proof.Machine

/-! The host interface (46_host_interface.md): the input commands (R152, R153), the reads (R156, R158, R159), and the
host without a move while the engine is busy (R161). -/

namespace Sys2Proof.Machine

variable {s t : State} {cmd : HostCommand}

/-! ### Accepted and refused -/

theorem State.accepts_iff : s.accepts cmd = true ↔ s.busy = false ∧ s.argsAccepted cmd = true := by
  simp only [State.accepts, Bool.and_eq_true, Bool.not_eq_true']

theorem State.command_of_accepts (h : s.accepts cmd = true) : s.command cmd = (s.hostEffect cmd, s.hostAnswer cmd) :=
  if_pos h

theorem State.command_of_busy (h : s.busy = true) (cmd : HostCommand) : s.command cmd = (s, .refused) :=
  if_neg fun haccepts => Bool.eq_false_iff.mp (State.accepts_iff.mp haccepts).1 h

/-! ### The input commands -/

theorem State.accepts_setInputs_iff {values : List Word} : s.accepts (.setInputs values) = true ↔
    s.busy = false ∧ (∀ x ∈ values, s.cfg.inRange x = true) ∧ s.cfg.inFits values.length = true := by
  rw [State.accepts_iff, State.argsAccepted, Bool.and_eq_true, allInRange, List.all_eq_true]

theorem State.accepts_addInput_iff {v : Int} : s.accepts (.addInput v) = true ↔
    s.busy = false ∧ s.cfg.inRange v = true ∧ s.cfg.inFits (s.inq.length + 1) = true := by
  rw [State.accepts_iff, State.argsAccepted, Bool.and_eq_true]

/-- R6: `IN_DEPTH = inf` bounds no queue. -/
theorem inFits_of_inDepth_eq_none {c : Config} (h : c.inDepth = none) (n : Nat) : c.inFits n = true := by
  rw [Config.inFits, h, withinBound]

/-- Settles O54: what the two commands check, and their effect when the check passes. -/
theorem inputCommands : Obligations.InputCommands := by
  intro s values v
  refine ⟨?_, ?_, fun hinf => inFits_of_inDepth_eq_none hinf _⟩
  · simp only [State.command, State.accepts_setInputs_iff, State.hostEffect, State.hostAnswer]
  · simp only [State.command, State.accepts_addInput_iff, State.hostEffect, State.hostAnswer]

/-! ### The reads -/

/-- R156, R158, R159: what an idle engine answers to a command that has nothing to check and no effect. -/
theorem State.command_read (hidle : s.busy = false) (hargs : s.argsAccepted cmd = true)
    (heffect : s.hostEffect cmd = s) : s.command cmd = (s, s.hostAnswer cmd) := by
  rw [State.command_of_accepts (State.accepts_iff.mpr ⟨hidle, hargs⟩), heffect]

/-- R158: one predicate for each execution state but Runnable. -/
theorem RunState.count_predicates (r : RunState) :
    [decide (r = .halted), decide (r = .suspended), decide (r = .faulted)].count true =
      if r = .runnable then 0 else 1 := by
  cases r <;> rfl

/-- Of the effects of commands the two loads alone reach memory, MEMLEN or `pc`. -/
theorem State.hostEffect_program (hload : ∀ image, cmd ≠ .construct image ∧ cmd ≠ .resetMemory image) :
    (s.hostEffect cmd).mem = s.mem ∧ (s.hostEffect cmd).memLen = s.memLen ∧ (s.hostEffect cmd).pc = s.pc := by
  cases cmd with
  | construct image => exact absurd rfl (hload image).1
  | resetMemory image => exact absurd rfl (hload image).2
  | run => exact ⟨State.startRun_mem s, State.startRun_memLen s, State.startRun_pc s⟩
  | resume => exact ⟨State.resumeRun_mem s, State.resumeRun_memLen s, State.resumeRun_pc s⟩
  | _ => exact ⟨rfl, rfl, rfl⟩

theorem State.command_program (hload : ∀ image, cmd ≠ .construct image ∧ cmd ≠ .resetMemory image) :
    (s.command cmd).1.mem = s.mem ∧ (s.command cmd).1.memLen = s.memLen ∧ (s.command cmd).1.pc = s.pc := by
  unfold State.command
  split
  · exact State.hostEffect_program hload
  · exact ⟨rfl, rfl, rfl⟩

/-- Settles O56: each read by its row of the answers, `read_memory` by the cells of the whole slice. -/
theorem observationsChangeNothing : Obligations.ObservationsChangeNothing := by
  refine ⟨fun s hidle => ?_, fun s cmd => State.command_program⟩
  have hmemory : ∀ i, i < s.memLen → (s.mem.slice 0 s.memLen)[i]? = some (s.cell i) := fun i hi => by
    rw [Memory.getElem?_slice s.mem 0 hi, Nat.zero_add, State.cell]
  exact ⟨State.command_read hidle rfl rfl, State.command_read hidle rfl rfl, State.command_read hidle rfl rfl,
    State.command_read hidle rfl rfl, State.command_read hidle rfl rfl,
    ⟨_, State.command_read hidle rfl rfl, Memory.length_slice s.mem 0 s.memLen, hmemory⟩,
    State.command_read hidle rfl rfl, RunState.count_predicates s.state⟩

/-! ### A busy engine -/

/-- None of the four ends of an instruction reaches the host agent. -/
theorem exec_hostAgent {i : Instr} (h : exec i s = .next t) :
    t.hostTodo = s.hostTodo ∧ t.hostReplies = s.hostReplies := by
  obtain ht | ⟨rfl, -⟩ | ⟨rfl, -⟩ | ⟨c, -, rfl⟩ := exec_cases h
  · rw [ht]; exact ⟨rfl, rfl⟩
  · exact ⟨State.halt_hostTodo s, State.halt_hostReplies s⟩
  · exact ⟨State.suspend_hostTodo s, State.suspend_hostReplies s⟩
  · exact ⟨State.raise_hostTodo s c, State.raise_hostReplies s c⟩

theorem State.engineStep_hostAgent (h : s.engineStep = .next t) :
    t.hostTodo = s.hostTodo ∧ t.hostReplies = s.hostReplies := by
  obtain ⟨-, rfl⟩ | ⟨i, -, hi⟩ := State.engineStep_cases h
  · exact ⟨State.raise_hostTodo s _, State.raise_hostReplies s _⟩
  · exact exec_hostAgent hi

/-- Settles O57: a command needs an idle engine, and the step of a busy one is the engine's alone. -/
theorem busyRefusesCommands : Obligations.BusyRefusesCommands := by
  refine fun s hbusy => ⟨State.command_of_busy hbusy, fun t h => ?_⟩
  obtain ⟨-, hengine⟩ | ⟨_, _, hidle, -⟩ := step_cases h
  · exact State.engineStep_hostAgent hengine
  · exact absurd hbusy (Bool.eq_false_iff.mp hidle)

end Sys2Proof.Machine

/-! A Faulted engine (60_exceptions.md R174): what the host's commands do to it. -/

namespace Sys2Proof.Machine

variable {s t : State}

theorem State.startRun_of_faulted (h : s.state = .faulted) : s.startRun = s := by
  rw [State.startRun_eq, h, if_neg nofun]

theorem State.resumeRun_of_faulted (h : s.state = .faulted) : s.resumeRun = s := by
  rw [State.resumeRun_eq, h, if_neg (by decide)]

/-- R174: of the effects of commands the two loads alone take an engine out of Faulted or touch its cause. -/
theorem State.hostEffect_of_faulted (h : s.state = .faulted) (cmd : HostCommand) :
    ((s.hostEffect cmd).state = .faulted ∧ (s.hostEffect cmd).cause = s.cause) ∨
      ∃ image, (cmd = .construct image ∨ cmd = .resetMemory image) ∧ (s.hostEffect cmd).state = .runnable ∧
        (s.hostEffect cmd).cause = .none := by
  cases cmd with
  | construct image => exact .inr ⟨image, .inl rfl, State.construct_state s image, State.construct_cause s image⟩
  | resetMemory image =>
    exact .inr ⟨image, .inr rfl, State.resetMemory_state s image, State.resetMemory_cause s image⟩
  | run => exact .inl ⟨(State.startRun_state s).trans h, State.startRun_cause s⟩
  | resume => exact .inl ⟨(congrArg State.state (State.resumeRun_of_faulted h)).trans h, State.resumeRun_cause s⟩
  | _ => exact .inl ⟨h, rfl⟩

/-- A command leaves a Faulted engine's `state` and `cause`, unless it is a load that is accepted. -/
theorem State.command_of_faulted (h : s.state = .faulted) (cmd : HostCommand) :
    ((s.command cmd).1.state = .faulted ∧ (s.command cmd).1.cause = s.cause) ∨
      ∃ image, (cmd = .construct image ∨ cmd = .resetMemory image) ∧ imageAccepted s.cfg image = true ∧
        (s.command cmd).1.state = .runnable ∧ (s.command cmd).1.cause = .none := by
  unfold State.command
  split
  · next haccepts =>
    obtain hkeep | ⟨image, hload, hstate, hcause⟩ := State.hostEffect_of_faulted h cmd
    · exact .inl hkeep
    · exact .inr ⟨image, hload, State.imageAccepted_of_accepts hload haccepts, hstate, hcause⟩
  · exact .inl ⟨h, rfl⟩

/-- Settles O58: the engine has no step in Faulted, and of the host's commands only an accepted load leaves it. -/
theorem faultedIsTerminal : Obligations.FaultedIsTerminal := by
  refine fun s h => ⟨fun hbusy => ?_, fun hidle => ⟨?_, ?_⟩, fun t hstep => ?_⟩
  · simp only [step, hbusy, h]
  · exact State.command_read hidle rfl (State.startRun_of_faulted h)
  · exact State.command_read hidle rfl (State.resumeRun_of_faulted h)
  · obtain ⟨⟨hrunnable, -⟩, -⟩ | ⟨cmd, rest, -, htodo, rfl⟩ := step_cases hstep
    · cases h.symm.trans hrunnable
    · obtain hkeep | ⟨image, hload, hends⟩ := State.command_of_faulted (s := { s with hostTodo := rest }) h cmd
      · exact .inl hkeep
      · refine .inr ⟨image, rest, ?_, hends⟩
        obtain rfl | rfl := hload
        · exact .inl htodo
        · exact .inr htodo

end Sys2Proof.Machine

/-! The order of tests (60_exceptions.md R178): an instruction, and then a whole step, ends as its list of tests
says. -/

namespace Sys2Proof

theorem assemble_input {m1 m2 : Mode} {ps : List Word} {i : Instr} (h : assemble .input m1 m2 ps = some i) :
    ∃ dst, i = .input dst := by
  match ps, h with
  | [], h => cases h
  | [dst], h => cases h; exact ⟨dst, rfl⟩
  | _ :: _ :: _, h => cases h

/-- R68: a word with opcode 3 is read as nothing but `input`. -/
theorem decode_of_opcode_input {w : Int} {ps rest : List Word} {i : Instr} (hop : w.toNat % 100 = 3)
    (h : decode (w :: ps) = .ok (i, rest)) : ∃ dst, i = .input dst := by
  obtain ⟨hw, -, -⟩ | ⟨op, d1, d2, hw, ha, -⟩ := decode_cases h
  · rw [isIllegalWord_iff] at hw
    omega
  · obtain ⟨-, hvalue, -, -⟩ := (decodeWord_eq_some_iff _ _ _ _).mp hw
    cases op with
    | input => exact assemble_input ha
    | _ => cases hop.symm.trans hvalue

end Sys2Proof

namespace Sys2Proof.Machine

variable {s t : State}

/-! ### Lists of tests -/

@[simp] theorem firstFailure_nil : firstFailure [] = none := rfl

@[simp] theorem firstFailure_failsWith_cons (c : Cause) (p : Prop) [Decidable p] (tests : List (Option Cause)) :
    firstFailure (failsWith c p :: tests) = if p then some c else firstFailure tests := by
  by_cases hp : p <;> simp [failsWith, firstFailure, hp]

/-- Tests that share their cause fail with it as soon as one of them does. -/
theorem firstFailure_map_failsWith {α : Type} (c : Cause) (p : α → Prop) [DecidablePred p] (xs : List α) :
    firstFailure (xs.map fun x => failsWith c (p x)) = if ∃ x ∈ xs, p x then some c else none := by
  induction xs with
  | nil => simp
  | cons x xs ih =>
    rw [List.map_cons, firstFailure_failsWith_cons, ih]
    by_cases hx : p x <;> simp [hx]

theorem State.firstFailure_targetTest_of_isCell {dst : Int} (h : s.isCell dst) :
    firstFailure (s.targetTest dst) = none := by
  simp only [State.targetTest, firstFailure_failsWith_cons, State.outside_iff, h, not_true, if_false, firstFailure_nil]

theorem State.firstFailure_targetTest_of_not_isCell {dst : Int} (h : ¬s.isCell dst) :
    firstFailure (s.targetTest dst) = some .writeOob := by
  simp only [State.targetTest, firstFailure_failsWith_cons, State.outside_iff, h, not_false_eq_true, if_true]

/-- Two read operands that have their values pass all their tests. -/
theorem State.firstFailure_operandTests_of_readsAs {m1 m2 : Mode} {p1 p2 : Int}
    (h1 : s.readsAs m1 p1 (s.operandValue m1 p1)) (h2 : s.readsAs m2 p2 (s.operandValue m2 p2)) :
    firstFailure (s.operandTests m1 p1 ++ s.operandTests m2 p2) = none := by
  rw [firstFailure_append, State.operandTests_pass_iff.mpr h1, State.operandTests_pass_iff.mpr h2, Option.or_none]

/-! ### Ending as the tests say -/

/-- R172, R178: from `s` to `t` the first failing test's fault was taken, or no test failed and no fault was taken. -/
def State.EndsAsTested (s t : State) (tests : List (Option Cause)) : Prop :=
  (firstFailure tests = none ∧ t.Safe) ∨ ∃ c, firstFailure tests = some c ∧ t = s.raise c

/-- An F3 instruction, whose own computation makes the tests `own` at the operands' values. -/
theorem State.commit_alu_endsAsTested {m1 m2 : Mode} {a b dst : Int} {f : Int → Int → Except Cause Int}
    {own : List (Option Cause)} (hs : s.Safe)
    (hok : ∀ r, f (s.operandValue m1 a) (s.operandValue m2 b) = .ok r → firstFailure own = none)
    (herror : ∀ c, f (s.operandValue m1 a) (s.operandValue m2 b) = .error c → firstFailure own = some c)
    (h : s.commit (s.alu m1 m2 a b dst f) = .next t) :
    s.EndsAsTested t (s.operandTests m1 a ++ s.operandTests m2 b ++ own ++ s.targetTest dst) := by
  unfold State.EndsAsTested
  rw [firstFailure_append, firstFailure_append]
  obtain ⟨r, hr, h1, h2, hdst, rfl⟩ | ⟨c, hc, rfl⟩ := State.commit_alu_cases h
  · refine .inl ⟨?_, hs⟩
    rw [State.firstFailure_operandTests_of_readsAs h1 h2, hok r hr, State.firstFailure_targetTest_of_isCell hdst]
    rfl
  · refine .inr ⟨c, ?_, rfl⟩
    obtain hoperand | ⟨v1, v2, h1, h2, hown⟩ := State.alu_eq_error_iff.mp hc
    · rw [State.resolve2_eq_error_iff.mp hoperand]; rfl
    · obtain rfl := State.readsAs_operandValue h1
      obtain rfl := State.readsAs_operandValue h2
      rw [State.firstFailure_operandTests_of_readsAs h1 h2]
      obtain hown | ⟨r, hr, hdst, rfl⟩ := hown
      · rw [herror c hown]; rfl
      · rw [hok r hr, State.firstFailure_targetTest_of_not_isCell hdst]; rfl

/-- R82: `add` and `mul` test the range of their result. -/
theorem State.commit_alu_checkRange_endsAsTested {m1 m2 : Mode} {a b dst : Int} {g : Int → Int → Int} (hs : s.Safe)
    (h : s.commit (s.alu m1 m2 a b dst fun v1 v2 => checkRange s.cfg (g v1 v2)) = .next t) :
    s.EndsAsTested t (s.operandTests m1 a ++ s.operandTests m2 b
      ++ s.overflowTest (g (s.operandValue m1 a) (s.operandValue m2 b)) ++ s.targetTest dst) := by
  refine State.commit_alu_endsAsTested hs (fun r hr => ?_) (fun c hc => ?_) h
  · simp [State.overflowTest, (checkRange_eq_ok_iff.mp hr).1]
  · obtain ⟨hrange, rfl⟩ := checkRange_eq_error_iff.mp hc
    simp [State.overflowTest, hrange]

/-- The comparisons have no test of their own. -/
theorem State.commit_alu_ok_endsAsTested {m1 m2 : Mode} {a b dst : Int} {g : Int → Int → Int} (hs : s.Safe)
    (h : s.commit (s.alu m1 m2 a b dst fun v1 v2 => .ok (g v1 v2)) = .next t) :
    s.EndsAsTested t (s.operandTests m1 a ++ s.operandTests m2 b ++ s.targetTest dst) := by
  have hends := State.commit_alu_endsAsTested (own := []) hs (fun _ _ => rfl) (fun _ hc => by cases hc) h
  rwa [List.append_nil] at hends

/-- R102: a jump tests its target where it is taken. -/
theorem State.commit_jump_endsAsTested {m1 m2 : Mode} {a b : Int} {taken : Int → Bool} {p : Prop} [Decidable p]
    (hp : taken (s.operandValue m1 a) = true ↔ p) (hs : s.Safe)
    (h : s.commit (s.jump m1 m2 a b taken) = .next t) :
    s.EndsAsTested t (s.operandTests m1 a ++ s.operandTests m2 b
      ++ [failsWith .badJumpTarget (p ∧ s.operandValue m2 b < 0)]) := by
  unfold State.EndsAsTested
  rw [firstFailure_append, firstFailure_failsWith_cons]
  obtain ⟨h1, h2, ⟨-, htarget, rfl⟩ | ⟨htaken, rfl⟩⟩ | ⟨c, hc, rfl⟩ := State.commit_jump_cases h
  · refine .inl ⟨?_, hs⟩
    rw [State.firstFailure_operandTests_of_readsAs h1 h2, if_neg fun hfails => hfails.2.not_ge htarget]
    rfl
  · refine .inl ⟨?_, hs⟩
    rw [State.firstFailure_operandTests_of_readsAs h1 h2, if_neg fun hfails => by simp [hp.mpr hfails.1] at htaken]
    rfl
  · refine .inr ⟨c, ?_, rfl⟩
    obtain hoperand | ⟨v1, v2, h1, h2, htaken, htarget, rfl⟩ := State.jump_eq_error_iff.mp hc
    · rw [State.resolve2_eq_error_iff.mp hoperand]; rfl
    · obtain rfl := State.readsAs_operandValue h1
      obtain rfl := State.readsAs_operandValue h2
      rw [State.firstFailure_operandTests_of_readsAs h1 h2, if_pos ⟨hp.mp htaken, htarget⟩]
      rfl

/-- R90: the target is the one test of `input`; an empty queue is no fault. -/
theorem execInput_endsAsTested {dst : Int} (hs : s.Safe) (h : execInput dst s = .next t) :
    s.EndsAsTested t (s.targetTest dst) := by
  obtain ⟨hdst, rfl⟩ | ⟨hdst, -, rfl⟩ | ⟨v, q, hdst, -, rfl⟩ := execInput_cases h
  · exact .inr ⟨_, State.firstFailure_targetTest_of_not_isCell hdst, rfl⟩
  · exact .inl ⟨State.firstFailure_targetTest_of_isCell hdst, nofun⟩
  · exact .inl ⟨State.firstFailure_targetTest_of_isCell hdst, hs⟩

/-- R92, R160: the operand of `output` is tested before the FIFO's room. -/
theorem execOutput_endsAsTested {m1 : Mode} {a : Int} (hs : s.Safe) (h : execOutput m1 a s = .next t) :
    s.EndsAsTested t (s.operandTests m1 a ++ [failsWith .outputFull (s.cfg.outFits (s.outq.length + 1) = false)]) := by
  have passes : ∀ {v}, s.readsAs m1 a v → firstFailure (s.operandTests m1 a) = none := fun hv =>
    State.operandTests_pass_iff.mpr (State.readsAs_operandValue hv ▸ hv)
  unfold State.EndsAsTested
  rw [firstFailure_append, firstFailure_failsWith_cons]
  obtain ⟨v, hv, hroom, rfl⟩ | ⟨c, hc, rfl⟩ | ⟨v, hv, hfull, rfl⟩ := execOutput_cases h
  · exact .inl ⟨by simp [passes hv, hroom], hs⟩
  · exact .inr ⟨c, by rw [hc]; rfl, rfl⟩
  · exact .inr ⟨_, by simp [passes hv, hfull], rfl⟩

/-- An instruction ends as its tests say. -/
theorem exec_endsAsTested {i : Instr} (hs : s.Safe) (h : exec i s = .next t) : s.EndsAsTested t (s.tests i) := by
  cases i with
  | add m1 m2 a b dst => exact State.commit_alu_checkRange_endsAsTested (g := (· + ·)) hs h
  | mul m1 m2 a b dst => exact State.commit_alu_checkRange_endsAsTested (g := (· * ·)) hs h
  | input dst => exact execInput_endsAsTested hs h
  | output m1 a => exact execOutput_endsAsTested hs h
  | jumpIfTrue m1 m2 cond target => exact State.commit_jump_endsAsTested decide_eq_true_iff hs h
  | jumpIfFalse m1 m2 cond target => exact State.commit_jump_endsAsTested decide_eq_true_iff hs h
  | lessThan m1 m2 a b dst => exact State.commit_alu_ok_endsAsTested hs h
  | equals m1 m2 a b dst => exact State.commit_alu_ok_endsAsTested hs h
  | halt => cases h; exact .inl ⟨rfl, nofun⟩
  | illegal w => cases h; exact .inr ⟨_, rfl, rfl⟩

/-! ### A whole step -/

/-- R178, orders 1 and 2: without an instruction word nothing else is looked at. -/
theorem State.firstFailure_stepTests_of_memLen_le_pc (h : s.memLen ≤ s.pc) :
    firstFailure s.stepTests = some .fetchOob := by
  simp [State.stepTests, h]

theorem State.firstFailure_stepTests_of_isIllegalWord (hpc : s.pc < s.memLen)
    (hw : isIllegalWord (s.cell s.pc) = true) : firstFailure s.stepTests = some .illegalOpcode := by
  simp [State.stepTests, hpc, hw]

/-- R178, order 3: the tests of `n` parameter cells after the word at `pc`. -/
theorem State.firstFailure_parameterTests (hpc : s.pc < s.memLen) (n : Nat) :
    firstFailure ((List.range n).map fun k => failsWith .fetchOob (s.memLen ≤ s.pc + k + 1)) =
      if s.memLen < s.pc + 1 + n then some .fetchOob else none := by
  have hmissing : (∃ k ∈ List.range n, s.memLen ≤ s.pc + k + 1) ↔ s.memLen < s.pc + 1 + n := by
    constructor
    · rintro ⟨k, hk, hlen⟩
      have := List.mem_range.mp hk
      omega
    · exact fun hlen => ⟨s.memLen - s.pc - 1, List.mem_range.mpr (by omega), by omega⟩
  simp only [firstFailure_map_failsWith, hmissing]

theorem State.firstFailure_stepTests_of_missing_parameter (hpc : s.pc < s.memLen)
    (hw : isIllegalWord (s.cell s.pc) = false) (hlen : s.memLen < s.pc + 1 + paramCount (s.cell s.pc)) :
    firstFailure s.stepTests = some .fetchOob := by
  simp [State.stepTests, firstFailure_append, State.firstFailure_parameterTests, hpc, hw, hlen]

/-- R178, from order 4 on: with a legal word and all its cells there, the instruction's own tests decide. -/
theorem State.firstFailure_stepTests_of_fetchInstr {i : Instr} (hpc : s.pc < s.memLen)
    (hw : isIllegalWord (s.cell s.pc) = false) (hlen : s.pc + 1 + paramCount (s.cell s.pc) ≤ s.memLen)
    (hf : s.fetchInstr = .ok i) : firstFailure s.stepTests = firstFailure (s.tests i) := by
  obtain ⟨-, rest, hd⟩ := State.fetchInstr_decode hf
  simp [State.stepTests, firstFailure_append, State.firstFailure_parameterTests, hpc.not_ge, hpc, hw, hlen.not_gt, hd]

/-- A step ends as its tests say: by the first cell or word that stops its fetch, else by its instruction. -/
theorem step_endsAsTested (hr : s.Running) (h : step s = .next t) : s.EndsAsTested t s.stepTests := by
  obtain hpc | hpc := le_or_gt s.memLen s.pc
  · cases (step_of_memLen_le_pc hr hpc).symm.trans h
    exact .inr ⟨_, State.firstFailure_stepTests_of_memLen_le_pc hpc, rfl⟩
  · cases hw : isIllegalWord (s.cell s.pc) with
    | true =>
      cases (step_of_isIllegalWord hr hpc hw).symm.trans h
      exact .inr ⟨_, State.firstFailure_stepTests_of_isIllegalWord hpc hw, rfl⟩
    | false =>
      obtain ⟨hlen, hf⟩ | ⟨i, rest, hlen, -, hf⟩ := State.fetchInstr_cases s
      · rw [step_eq_engineStep hr, State.engineStep, hf] at h
        cases h
        exact .inr ⟨_, State.firstFailure_stepTests_of_missing_parameter hpc hw hlen, rfl⟩
      · rw [step_eq_exec hr hf] at h
        unfold State.EndsAsTested
        rw [State.firstFailure_stepTests_of_fetchInstr hpc hw hlen hf]
        exact exec_endsAsTested hr.safe h

/-- R91: a step suspends at an `input` with a target in memory and an empty queue. -/
theorem step_suspends (hr : s.Running) (h : step s = .next t) (ht : t.state = .suspended) :
    s.opcodeAtPc = 3 ∧ s.inq = [] := by
  rw [step_eq_engineStep hr] at h
  obtain hend | ⟨hend, -⟩ | ⟨-, ⟨-, -, hop, -⟩, hq⟩ | ⟨hend, -⟩ := State.engineStep_transition hr.1 h
  · cases hend.symm.trans ht
  · cases hend.symm.trans ht
  · exact ⟨hop, hq⟩
  · cases hend.symm.trans ht

theorem State.fetchInstr_of_opcode_input {i : Instr} (hop : s.opcodeAtPc = 3) (hf : s.fetchInstr = .ok i) :
    ∃ dst, i = .input dst := by
  obtain ⟨-, rest, hd⟩ := State.fetchInstr_decode hf
  exact decode_of_opcode_input hop hd

/-- R90, R91: a step at an `input` with an empty queue suspends or faults. -/
theorem step_of_opcode_input (hr : s.Running) (h : step s = .next t) (ht : t.Safe) (hop : s.opcodeAtPc = 3)
    (hq : s.inq = []) : t.state = .suspended := by
  rw [step_eq_engineStep hr] at h
  obtain ⟨-, rfl⟩ | ⟨i, hf, hi⟩ := State.engineStep_cases h
  · exact absurd rfl ht
  · obtain ⟨dst, rfl⟩ := State.fetchInstr_of_opcode_input hop hf
    obtain ⟨-, rfl⟩ | ⟨-, -, rfl⟩ | ⟨v, q, -, hvalue, -⟩ := execInput_cases hi
    · exact absurd rfl ht
    · rfl
    · cases hq.symm.trans hvalue

/-- Settles O31: the step, which always has a next state, ends as its tests say. -/
theorem firstFailingTestDecides : Obligations.FirstFailingTestDecides := by
  intro s hr
  obtain ⟨t, ht⟩ := State.engineStep_total s
  have hstep : step s = .next t := (step_eq_engineStep hr).trans ht
  obtain ⟨hpass, hsafe⟩ | ⟨c, hfail, rfl⟩ := step_endsAsTested hr hstep
  · refine ⟨fun c hfail => ?_, fun _ => ⟨t, hstep, hsafe, step_suspends hr hstep, fun ⟨hop, hq⟩ => ?_⟩⟩
    · cases hpass.symm.trans hfail
    · exact step_of_opcode_input hr hstep hsafe hop hq
  · refine ⟨fun c' hfail' => ?_, fun hpass => ?_⟩
    · cases hfail.symm.trans hfail'
      exact hstep
    · cases hfail.symm.trans hpass

end Sys2Proof.Machine

/-! The encoder against the decoder (30_encoding.md R63, R67, R71, R73). -/

namespace Sys2Proof

/-! ### What the decoder reads after a word it accepts -/

/-- The decoder on an instruction's own cells: a word that selects `op`, its parameters, and any cells after them. -/
theorem decode_of_assemble {w : Int} {op : Opcode} {d1 d2 : Nat} {ps : List Word} {i : Instr}
    (hw : decodeWord w = some (op, d1, d2)) (ha : assemble op (.ofDigit d1) (.ofDigit d2) ps = some i)
    (rest : List Word) : decode (w :: (ps ++ rest)) = .ok (i, rest) := by
  have hlen : ps.length = op.nparams := by
    by_contra hne
    cases ((assemble_eq_none_iff op _ _ ps).mpr hne).symm.trans ha
  simp only [decode, hw, ← hlen, List.take_left, List.drop_left, ha]

/-- R71: an encoded instruction is an illegal word alone, or the canonical word of well-formed modes with the very
parameters the instruction is assembled from. -/
theorem encode_cases {c : Config} {i : Instr} (h : i.wellFormed c = true) :
    (∃ w, i = .illegal w ∧ isIllegalWord w = true) ∨
      ∃ op m1 m2 ps, encode i = canonicalWord op m1 m2 :: ps ∧ m1.wellFormed = true ∧ m2.wellFormed = true ∧
        assemble op m1 m2 ps = some i := by
  cases i with
  | illegal w => exact .inl ⟨w, rfl, (Bool.and_eq_true_iff.mp h).1⟩
  | input dst => exact .inr ⟨.input, .positional, .positional, [dst], rfl, rfl, rfl, rfl⟩
  | halt => exact .inr ⟨.halt, .positional, .positional, [], rfl, rfl, rfl, rfl⟩
  | output m1 a => exact .inr ⟨.output, m1, .positional, [a], rfl, (Bool.and_eq_true_iff.mp h).1, rfl, rfl⟩
  | add m1 m2 a b dst | mul m1 m2 a b dst | lessThan m1 m2 a b dst | equals m1 m2 a b dst
  | jumpIfTrue m1 m2 a b | jumpIfFalse m1 m2 a b =>
    simp only [Instr.wellFormed, Bool.and_eq_true] at h
    exact .inr ⟨_, m1, m2, _, rfl, by simp only [h], by simp only [h], rfl⟩

/-- Settles O2: the canonical word gives back its operation and both mode digits, and the parameters follow it. -/
theorem decodeOfEncode : Obligations.DecodeOfEncode := by
  intro c i rest h
  obtain ⟨w, rfl, hw⟩ | ⟨op, m1, m2, ps, hencode, h1, h2, ha⟩ := encode_cases h
  · exact decode_illegal hw rest
  · rw [hencode]
    refine decode_of_assemble (decodeWord_canonicalWord op h1 h2) ?_ rest
    rwa [Mode.ofDigit_digit h1, Mode.ofDigit_digit h2]

/-- Settles O1: each word is decoded digit by digit. -/
theorem decodesSpecWords : Obligations.DecodesSpecWords :=
  ⟨rfl, rfl, rfl, rfl, rfl, rfl, rfl, rfl, rfl, rfl, rfl, rfl⟩

/-! ### The canonical word is the least -/

/-- R63, R67: an assembled instruction is assembled as well from modes in which every digit its format does not use
is 0, and those are the ones the encoder emits. -/
theorem encode_of_assemble {op : Opcode} {m1 m2 : Mode} {ps : List Word} {i : Instr}
    (ha : assemble op m1 m2 ps = some i) :
    ∃ n1 n2, encode i = canonicalWord op n1 n2 :: ps ∧ assemble op n1 n2 ps = some i ∧
      (n1 = m1 ∨ n1 = .positional) ∧ (n2 = m2 ∨ n2 = .positional) := by
  unfold assemble at ha
  split at ha <;> cases ha
  -- `input` and `halt` use no mode digit, `output` the first alone, the others both.
  case h_3 | h_9 => exact ⟨.positional, .positional, rfl, rfl, .inr rfl, .inr rfl⟩
  case h_4 => exact ⟨m1, .positional, rfl, rfl, .inl rfl, .inr rfl⟩
  all_goals exact ⟨m1, m2, rfl, rfl, .inl rfl, .inl rfl⟩

/-- R61: a word is at least its opcode and its digits 2 and 3 at their places. -/
theorem canonical_le_of_decodeWord {w : Int} {op : Opcode} {d1 d2 : Nat} (h : decodeWord w = some (op, d1, d2)) :
    ((op.value + 100 * d1 + 1000 * d2 : Nat) : Int) ≤ w := by
  obtain ⟨hnonneg, hop, rfl, rfl⟩ := (decodeWord_eq_some_iff _ _ _ _).mp h
  simp only [← hop, decDigit]
  omega

/-- A mode a digit of the word selects, or the mode of digit 0, is well-formed and its digit no larger. -/
theorem Mode.wellFormed_and_digit_le {n : Mode} {d : Nat} (hd : d < 10) (h : n = .ofDigit d ∨ n = .positional) :
    n.wellFormed = true ∧ n.digit ≤ d := by
  obtain rfl | rfl := h
  · exact ⟨Mode.wellFormed_ofDigit hd, (Mode.digit_ofDigit d).le⟩
  · exact ⟨rfl, Nat.zero_le d⟩

/-- Settles O5: the encoder keeps the opcode and the used digits, and a word with more digits set is larger. -/
theorem canonicalWordIsLeast : Obligations.CanonicalWordIsLeast := by
  intro w ps rest i hlegal h
  obtain ⟨hw, -, -⟩ | ⟨op, d1, d2, hw, ha, rfl⟩ := decode_cases h
  · cases hlegal.symm.trans hw
  · obtain ⟨n1, n2, hencode, hassemble, hn1, hn2⟩ := encode_of_assemble ha
    obtain ⟨hd1, hd2⟩ := decodeWord_digits hw
    obtain ⟨hwf1, hle1⟩ := Mode.wellFormed_and_digit_le hd1 hn1
    obtain ⟨hwf2, hle2⟩ := Mode.wellFormed_and_digit_le hd2 hn2
    refine ⟨canonicalWord op n1 n2, by rw [hencode]; rfl, Int.natCast_nonneg _, ?_, ?_⟩
    · have hle := canonical_le_of_decodeWord hw
      unfold canonicalWord
      omega
    · rw [← Mode.ofDigit_digit hwf1, ← Mode.ofDigit_digit hwf2] at hassemble
      have hdecode := decode_of_assemble (decodeWord_canonicalWord op hwf1 hwf2) hassemble (ps.drop op.nparams)
      rwa [List.take_append_drop] at hdecode

/-! ### Ignored digits -/

/-- R61: an operation and two digits at their places, and no others, are read back. -/
theorem decodeWord_of_digits (op : Opcode) {d1 d2 : Nat} (h1 : d1 < 10) (h2 : d2 < 10) :
    decodeWord ((op.value + 100 * d1 + 1000 * d2 : Nat) : Int) = some (op, d1, d2) := by
  have hcanonical := decodeWord_canonicalWord op (Mode.wellFormed_ofDigit h1) (Mode.wellFormed_ofDigit h2)
  simpa only [canonicalWord, Mode.digit_ofDigit] using hcanonical

/-- R63: digit 4 and the higher ones take no part in the reading of a word. -/
theorem decodeWord_add_mul {w : Int} (hw : 0 ≤ w) (n : Nat) : decodeWord (w + 10000 * (n : Int)) = decodeWord w := by
  lift w to Nat using hw
  have hcast : (w : Int) + 10000 * (n : Int) = ((w + 10000 * n : Nat) : Int) := by push_cast; rfl
  have hop : (w + 10000 * n) % 100 = w % 100 := by omega
  have h2 : decDigit (w + 10000 * n) 2 = decDigit w 2 := by simp only [decDigit]; omega
  have h3 : decDigit (w + 10000 * n) 3 = decDigit w 3 := by simp only [decDigit]; omega
  simp only [hcast, decodeWord, Int.toNat_natCast, hop, h2, h3, (Int.natCast_nonneg _).not_gt, if_false]

/-- Settles O6: equal digits 0 to 3 decode alike, and `assemble` drops the digits its format does not use. -/
theorem ignoredDigitsChangeNothing : Obligations.IgnoredDigitsChangeNothing := by
  refine ⟨fun w n ps hlegal => ?_, fun d1 d2 dst ps h1 h2 => ?_, fun m1 d2 a ps hm h2 => ?_, fun d1 d2 ps h1 h2 => ?_⟩
  · have hnonneg : 0 ≤ w := by
      by_contra hneg
      cases hlegal.symm.trans ((isIllegalWord_iff w).mpr (.inl (by omega)))
    have hsame := decodeWord_add_mul hnonneg n
    cases hw : decodeWord w with
    | none => cases hlegal.symm.trans ((decodeWord_eq_none_iff w).mp hw)
    | some x => simp only [decode, hsame, hw]
  · exact decode_of_assemble (ps := [dst]) (decodeWord_of_digits .input h1 h2) rfl ps
  · refine decode_of_assemble (ps := [a]) (decodeWord_of_digits .output (Mode.digit_lt_ten hm) h2) ?_ ps
    rw [Mode.ofDigit_digit hm]
    rfl
  · exact decode_of_assemble (ps := []) (decodeWord_of_digits .halt h1 h2) rfl ps

end Sys2Proof

/-! The invariant (10_state.md R33): what each update of the state keeps of it, a loaded image, and both agents'
steps. -/

namespace Sys2Proof

/-! ### Words of every admissible configuration -/

theorem Config.inRange_of_width_eq_none {c : Config} (h : c.width = none) (w : Int) : c.inRange w = true := by
  simp only [Config.inRange, h]

theorem Config.inRange_iff_of_width_eq_some {c : Config} {n : Nat} (h : c.width = some n) (w : Int) :
    c.inRange w = true ↔ intMin n ≤ w ∧ w ≤ intMax n := by
  simp only [Config.inRange, h, Bool.and_eq_true, decide_eq_true_eq]

/-- R6: a finite width is at least 8, and bounds `MEM_CAP` by `INT_MAX`. -/
theorem Config.width_of_admissible {c : Config} {n : Nat} (hc : c.admissible = true) (h : c.width = some n) :
    8 ≤ n ∧ ∃ cap, c.memCap = some cap ∧ (cap : Int) ≤ intMax n := by
  have hwidth : c.widthAdmissible = true := (Bool.and_eq_true_iff.mp (Bool.and_eq_true_iff.mp hc).1).1
  unfold Config.widthAdmissible at hwidth
  cases hcap : c.memCap with
  | none => simp [h, hcap] at hwidth
  | some cap => simpa [h, hcap] using hwidth

/-- R110, R111: the words a comparison writes are words of every width. -/
theorem Config.inRange_of_truth {c : Config} (hc : c.admissible = true) {w : Int} (h0 : 0 ≤ w) (h1 : w ≤ 1) :
    c.inRange w = true := by
  cases hwidth : c.width with
  | none => exact Config.inRange_of_width_eq_none hwidth w
  | some n =>
    obtain ⟨hn, -⟩ := Config.width_of_admissible hc hwidth
    have hpow : 2 ^ 1 ≤ 2 ^ (n - 1) := Nat.pow_le_pow_right (by decide) (by omega)
    rw [Config.inRange_iff_of_width_eq_some hwidth]
    unfold intMin intMax
    omega

/-- R6, R22: an index up to a length that `MEM_CAP` allows is a word. -/
theorem Config.inRange_of_memFits {c : Config} (hc : c.admissible = true) {len k : Nat} (hfits : c.memFits len = true)
    (hk : k ≤ len) : c.inRange (k : Int) = true := by
  cases hwidth : c.width with
  | none => exact Config.inRange_of_width_eq_none hwidth _
  | some n =>
    obtain ⟨-, cap, hcap, hmax⟩ := Config.width_of_admissible hc hwidth
    have hlen : len ≤ cap := by simpa [Config.memFits, withinBound, hcap] using hfits
    rw [Config.inRange_iff_of_width_eq_some hwidth]
    have hmin : intMin n ≤ 0 := by simp [intMin]
    omega

theorem withinBound_zero (bound : Option Nat) : withinBound bound 0 = true := by
  cases bound with
  | none => rfl
  | some b => exact decide_eq_true (Nat.zero_le b)

theorem withinBound_mono {bound : Option Nat} {m n : Nat} (hmn : m ≤ n) (h : withinBound bound n = true) :
    withinBound bound m = true := by
  cases bound with
  | none => rfl
  | some b => exact decide_eq_true (hmn.trans (of_decide_eq_true h))

end Sys2Proof

namespace Sys2Proof.Machine

variable {s t : State}

/-! ### What an update of the state keeps of the invariant -/

/-- The host agent takes no part in the invariant. -/
theorem State.Inv.hostAgent (h : s.Inv) (todo : List HostCommand) (replies : List HostReply) :
    State.Inv { s with hostTodo := todo, hostReplies := replies } :=
  { h with }

theorem State.Inv.setInq (h : s.Inv) {q : List Word} (hrange : ∀ v ∈ q, s.cfg.inRange v = true)
    (hfits : s.cfg.inFits q.length = true) : State.Inv { s with inq := q } :=
  { h with inqInRange := hrange, inqFits := hfits }

theorem State.Inv.pushOutput (h : s.Inv) {v : Int} (hv : s.cfg.inRange v = true)
    (hfits : s.cfg.outFits (s.outq.length + 1) = true) : State.Inv { s with outq := s.outq ++ [v] } :=
  { h with
    outqInRange := fun w hw => by
      obtain hw | hw := List.mem_append.mp hw
      · exact h.outqInRange w hw
      · exact List.mem_singleton.mp hw ▸ hv
    outqFits := by rwa [List.length_append] }

/-- A Runnable engine may stand anywhere: R33 places `pc` only where it is Suspended or Halted. -/
theorem State.Inv.setPc (h : s.Inv) (hr : s.state = .runnable) {n : Nat} (hn : s.cfg.inRange (n : Int) = true) :
    (s.setPc n).Inv :=
  { h with
    pcInRange := hn
    suspendedAt := fun hstate => by cases hr.symm.trans hstate
    haltedAt := fun hstate => by cases hr.symm.trans hstate }

theorem State.toNat_lt_of_isCell {a : Int} (h : s.isCell a) : a.toNat < s.memLen := by
  obtain ⟨h0, hlen⟩ := h
  omega

theorem State.Inv.setCell (h : s.Inv) (hr : s.state = .runnable) {a : Int} {v : Int} (ha : s.isCell a)
    (hv : s.cfg.inRange v = true) : (s.setCell a.toNat v).Inv :=
  { h with
    memCanonical := Memory.wf_write h.memCanonical (State.toNat_lt_of_isCell ha)
    cellsInRange := fun b => by
      by_cases hb : b = a.toNat
      · rw [hb, State.cell_setCell_same h.memCanonical]; exact hv
      · rw [State.cell_setCell_other s v hb]; exact h.cellsInRange b
    suspendedAt := fun hstate => by cases hr.symm.trans hstate
    haltedAt := fun hstate => by cases hr.symm.trans hstate }

theorem State.Inv.raise (h : s.Inv) {c : Cause} (hc : c ≠ .none) : (s.raise c).Inv :=
  { h with
    causeNone := ⟨fun hnone => absurd hnone hc, fun hsafe => absurd rfl hsafe⟩
    suspendedAt := nofun
    haltedAt := nofun
    busyRunnable := nofun }

theorem State.Inv.suspend (h : s.Inv) (hr : s.state = .runnable) (hat : s.AtInput) : s.suspend.Inv :=
  { h with
    causeNone := ⟨nofun, fun _ => h.causeNone.mpr (by simp [hr])⟩
    suspendedAt := fun _ => hat
    haltedAt := nofun
    busyRunnable := nofun }

theorem State.Inv.halt (h : s.Inv) (hr : s.state = .runnable) (hat : s.AtHalt) : s.halt.Inv :=
  { h with
    causeNone := ⟨nofun, fun _ => h.causeNone.mpr (by simp [hr])⟩
    suspendedAt := nofun
    haltedAt := fun _ => hat
    busyRunnable := nofun }

theorem State.Inv.startRun (h : s.Inv) : s.startRun.Inv := by
  rw [State.startRun_eq]
  split
  · next hr => exact { h with busyRunnable := fun _ => hr }
  · exact h

theorem State.Inv.resumeRun (h : s.Inv) : s.resumeRun.Inv := by
  rw [State.resumeRun_eq]
  split
  · next hstate =>
    have hcause : s.cause = .none := h.causeNone.mpr (by obtain hs | hs := hstate <;> simp [hs])
    exact { h with
      causeNone := ⟨nofun, fun _ => hcause⟩
      suspendedAt := nofun
      haltedAt := nofun
      busyRunnable := fun _ => rfl }
  · exact h

/-! ### A loaded image -/

theorem imageAccepted_iff {c : Config} {image : List Word} :
    imageAccepted c image = true ↔ c.memFits image.length = true ∧ ∀ v ∈ image, c.inRange v = true := by
  simp only [imageAccepted, allInRange, Bool.and_eq_true, List.all_eq_true]

/-- R32, R150: a state with an image's memory and the values a load gives has that image loaded. -/
theorem State.loaded_of_ofImage {image : List Word} (hmem : t.mem = Memory.ofImage image)
    (hlen : t.memLen = image.length) (hpc : t.pc = 0) (hstate : t.state = .runnable) (hcause : t.cause = .none)
    (houtq : t.outq = []) : t.Loaded image := by
  refine ⟨hlen, fun i hi => ?_, ?_, hpc, hstate, hcause, houtq⟩
  · rw [State.cell, hmem, Memory.read_ofImage, List.getD_eq_getElem _ _ hi, List.getElem?_eq_getElem hi]
  · rw [hmem, hlen]
    exact Memory.wf_ofImage image

theorem State.resetMemory_loaded (s : State) (image : List Word) : (s.resetMemory image).Loaded image :=
  State.loaded_of_ofImage rfl rfl rfl rfl rfl rfl

theorem State.construct_loaded (s : State) (image : List Word) : (s.construct image).Loaded image :=
  State.loaded_of_ofImage rfl rfl rfl rfl rfl rfl

theorem State.built_loaded (c : Config) (image : List Word) : (State.built c image).Loaded image :=
  State.loaded_of_ofImage rfl rfl rfl rfl rfl rfl

/-- A loaded image of words and an input queue of words meet the invariant, whatever the engine was before. -/
theorem State.Loaded.inv {image : List Word} (h : t.Loaded image) (hc : t.cfg.admissible = true)
    (himage : imageAccepted t.cfg image = true) (hinq : ∀ v ∈ t.inq, t.cfg.inRange v = true)
    (hfits : t.cfg.inFits t.inq.length = true) : t.Inv := by
  obtain ⟨hlen, hcells, hwf, hpc, hstate, hcause, houtq⟩ := h
  obtain ⟨hmemFits, hwords⟩ := imageAccepted_iff.mp himage
  have hcell : ∀ a, t.cfg.inRange (t.cell a) = true := fun a => by
    by_cases ha : a < image.length
    · exact hwords _ (List.mem_of_getElem? (hcells a ha))
    · rw [State.cell, Memory.read_beyond hwf (by omega)]
      exact Config.inRange_of_truth hc (by decide) (by decide)
  exact
    { cfgAdmissible := hc
      memCanonical := hwf
      memLenFits := by rwa [hlen]
      cellsInRange := hcell
      inqInRange := hinq
      outqInRange := by simp [houtq]
      pcInRange := by rw [hpc]; exact Config.inRange_of_truth hc (by decide) (by decide)
      causeNone := by simp [hstate, hcause]
      suspendedAt := fun hs => by cases hstate.symm.trans hs
      haltedAt := fun hs => by cases hstate.symm.trans hs
      inqFits := hfits
      outqFits := by rw [houtq]; exact withinBound_zero t.cfg.outDepth
      busyRunnable := fun _ => hstate }

/-! ### The engine's step -/

theorem canRaise_none (i : Instr) : canRaise i .none = false := by
  cases i <;> rfl

/-- R173: a fault of an instruction has a cause, so it keeps the invariant. -/
theorem State.Inv.raise_of_exec {i : Instr} {c : Cause} (h : s.Inv) (hs : s.Safe)
    (hi : exec i s = .next (s.raise c)) : (s.raise c).Inv := by
  have hcan : canRaise i c = true := canRaise_of_exec hs hi rfl
  refine h.raise ?_
  rintro rfl
  cases (canRaise_none i).symm.trans hcan

theorem Memory.mem_slice {m : Memory} {a n : Nat} {w : Word} (h : w ∈ m.slice a n) : ∃ b, w = m.read b := by
  obtain ⟨i, hi⟩ := List.mem_iff_getElem?.mp h
  obtain ⟨hlt, -⟩ := List.getElem?_eq_some_iff.mp hi
  rw [Memory.getElem?_slice m a (by simpa using hlt)] at hi
  exact ⟨a + i, (Option.some.inj hi).symm⟩

/-- Cells that hold words are fetched as a well-formed instruction. -/
theorem State.Inv.wellFormed_of_fetchInstr {i : Instr} (h : s.Inv) (hf : s.fetchInstr = .ok i) :
    i.wellFormed s.cfg = true := by
  obtain ⟨-, rest, hd⟩ := State.fetchInstr_decode hf
  refine decode_wellFormed (fun w hw => ?_) hd
  obtain ⟨b, rfl⟩ := Memory.mem_slice hw
  exact h.cellsInRange b

/-- R22: the instruction after a fetched one stands at a word. -/
theorem State.Inv.inRange_pc_add {i : Instr} (h : s.Inv) (hf : s.fetchInstr = .ok i) :
    s.cfg.inRange ((s.pc + i.length : Nat) : Int) = true :=
  Config.inRange_of_memFits h.cfgAdmissible h.memLenFits (State.fetchInstr_decode hf).1

theorem State.Inv.inRange_operandValue (h : s.Inv) (m : Mode) {p : Int} (hp : s.cfg.inRange p = true) :
    s.cfg.inRange (s.operandValue m p) = true := by
  cases m with
  | immediate => exact hp
  | positional => exact h.cellsInRange _
  | unknown d => exact h.cellsInRange _

/-- An F3 instruction whose result is a word. -/
theorem State.Inv.commit_alu {m1 m2 : Mode} {a b dst : Int} {f : Int → Int → Except Cause Int} (h : s.Inv)
    (hr : s.state = .runnable) (hpc : s.cfg.inRange ((s.pc + 4 : Nat) : Int) = true)
    (hf : ∀ v1 v2 r, f v1 v2 = .ok r → s.cfg.inRange r = true) (hraise : ∀ c, t = s.raise c → t.Inv)
    (hi : s.commit (s.alu m1 m2 a b dst f) = .next t) : t.Inv := by
  obtain ⟨r, hfr, -, -, hdst, rfl⟩ | ⟨c, -, ht⟩ := State.commit_alu_cases hi
  · exact (h.setCell hr hdst (hf _ _ r hfr)).setPc hr hpc
  · exact hraise c ht

/-- A jump whose target is a word. -/
theorem State.Inv.commit_jump {m1 m2 : Mode} {a b : Int} {taken : Int → Bool} (h : s.Inv) (hr : s.state = .runnable)
    (hpc : s.cfg.inRange ((s.pc + 3 : Nat) : Int) = true) (hb : s.cfg.inRange b = true)
    (hraise : ∀ c, t = s.raise c → t.Inv) (hi : s.commit (s.jump m1 m2 a b taken) = .next t) : t.Inv := by
  obtain ⟨-, -, ⟨-, htarget, rfl⟩ | ⟨-, rfl⟩⟩ | ⟨c, -, ht⟩ := State.commit_jump_cases hi
  · refine h.setPc hr ?_
    rw [Int.toNat_of_nonneg htarget]
    exact h.inRange_operandValue m2 hb
  · exact h.setPc hr hpc
  · exact hraise c ht

theorem State.Inv.execInput {dst : Int} (h : s.Inv) (hr : s.state = .runnable)
    (hf : s.fetchInstr = .ok (.input dst)) (hi : execInput dst s = .next t) : t.Inv := by
  obtain ⟨-, rfl⟩ | ⟨hdst, -, rfl⟩ | ⟨v, q, hdst, hq, rfl⟩ := execInput_cases hi
  · exact h.raise nofun
  · exact h.suspend hr (State.atInput_of_fetchInstr hf hdst)
  · have hwords : ∀ w ∈ v :: q, s.cfg.inRange w = true := hq ▸ h.inqInRange
    have hfits : s.cfg.inFits (v :: q).length = true := hq ▸ h.inqFits
    have hqueue : State.Inv { s with inq := q } :=
      h.setInq (fun w hw => hwords w (List.mem_cons_of_mem v hw)) (withinBound_mono (Nat.le_succ _) hfits)
    exact (hqueue.setCell hr hdst (hwords v List.mem_cons_self)).setPc hr (h.inRange_pc_add hf)

theorem State.Inv.execOutput {m1 : Mode} {a : Int} (h : s.Inv) (hr : s.state = .runnable)
    (hf : s.fetchInstr = .ok (.output m1 a)) (ha : s.cfg.inRange a = true) (hraise : ∀ c, t = s.raise c → t.Inv)
    (hi : execOutput m1 a s = .next t) : t.Inv := by
  obtain ⟨v, hv, hroom, rfl⟩ | ⟨c, -, ht⟩ | ⟨v, -, -, ht⟩ := execOutput_cases hi
  · obtain rfl := State.readsAs_operandValue hv
    exact (h.pushOutput (h.inRange_operandValue m1 ha) hroom).setPc hr (h.inRange_pc_add hf)
  · exact hraise c ht
  · exact hraise _ ht

/-- A fetched instruction keeps the invariant. -/
theorem State.Inv.exec {i : Instr} (h : s.Inv) (hr : s.state = .runnable) (hf : s.fetchInstr = .ok i)
    (hi : exec i s = .next t) : t.Inv := by
  have hwf := h.wellFormed_of_fetchInstr hf
  have hpc := h.inRange_pc_add hf
  have hraise : ∀ c, t = s.raise c → t.Inv := by
    rintro c rfl
    exact h.raise_of_exec (by simp [State.Safe, hr]) hi
  have hrange : ∀ g v, checkRange s.cfg g = .ok v → s.cfg.inRange v = true := fun g v hv => by
    obtain ⟨hg, rfl⟩ := checkRange_eq_ok_iff.mp hv
    exact hg
  have htruth : ∀ p v, (.ok (truthWord p) : Except Cause Int) = .ok v → s.cfg.inRange v = true := by
    rintro p v ⟨⟩
    exact Config.inRange_of_truth h.cfgAdmissible (by cases p <;> decide) (by cases p <;> decide)
  cases i with
  | add m1 m2 a b dst => exact h.commit_alu hr hpc (fun _ _ => hrange _) hraise hi
  | mul m1 m2 a b dst => exact h.commit_alu hr hpc (fun _ _ => hrange _) hraise hi
  | input dst => exact h.execInput hr hf hi
  | output m1 a => exact h.execOutput hr hf (Bool.and_eq_true_iff.mp hwf).2 hraise hi
  | jumpIfTrue m1 m2 cond target => exact h.commit_jump hr hpc (Bool.and_eq_true_iff.mp hwf).2 hraise hi
  | jumpIfFalse m1 m2 cond target => exact h.commit_jump hr hpc (Bool.and_eq_true_iff.mp hwf).2 hraise hi
  | lessThan m1 m2 a b dst => exact h.commit_alu hr hpc (fun _ _ => htruth _) hraise hi
  | equals m1 m2 a b dst => exact h.commit_alu hr hpc (fun _ _ => htruth _) hraise hi
  | halt => cases hi; exact h.halt hr (State.atHalt_of_fetchInstr hf)
  | illegal w => cases hi; exact h.raise nofun

theorem State.Inv.engineStep (h : s.Inv) (hr : s.state = .runnable) (hstep : s.engineStep = .next t) : t.Inv := by
  obtain ⟨-, rfl⟩ | ⟨i, hf, hi⟩ := State.engineStep_cases hstep
  · exact h.raise nofun
  · exact h.exec hr hf hi

/-! ### The host's commands -/

theorem State.Inv.hostEffect {cmd : HostCommand} (h : s.Inv) (haccepts : s.accepts cmd = true) :
    (s.hostEffect cmd).Inv := by
  cases cmd with
  | construct image =>
    have himage := State.imageAccepted_of_accepts (.inl rfl) haccepts
    exact (s.construct_loaded image).inv h.cfgAdmissible himage nofun (withinBound_zero _)
  | resetMemory image =>
    have himage := State.imageAccepted_of_accepts (.inr rfl) haccepts
    exact (s.resetMemory_loaded image).inv h.cfgAdmissible himage h.inqInRange h.inqFits
  | setInputs values =>
    obtain ⟨-, hwords, hfits⟩ := State.accepts_setInputs_iff.mp haccepts
    exact h.setInq hwords hfits
  | addInput v =>
    obtain ⟨-, hv, hfits⟩ := State.accepts_addInput_iff.mp haccepts
    refine h.setInq (fun w hw => ?_) (by rwa [List.length_append])
    obtain hw | hw := List.mem_append.mp hw
    · exact h.inqInRange w hw
    · exact List.mem_singleton.mp hw ▸ hv
  | run => exact h.startRun
  | resume => exact h.resumeRun
  | _ => exact h

theorem State.Inv.command (h : s.Inv) (cmd : HostCommand) : (s.command cmd).1.Inv := by
  unfold State.command
  split
  · next haccepts => exact h.hostEffect haccepts
  · exact h

/-! ### Every step -/

/-- Settles O47: the engine's step by its instruction, the host's by its command. -/
theorem everyStepKeepsInv : Obligations.EveryStepKeepsInv := by
  intro s t h hstep
  obtain ⟨hr, hengine⟩ | ⟨cmd, rest, -, -, rfl⟩ := step_cases hstep
  · exact h.engineStep hr.1 hengine
  · exact ((h.hostAgent rest s.hostReplies).command cmd).hostAgent _ _

/-- Settles O49: a built engine has its image loaded and its input queue empty. -/
theorem builtEngineMeetsInv : Obligations.BuiltEngineMeetsInv := fun c image hc himage =>
  (State.built_loaded c image).inv hc himage nofun (withinBound_zero _)

/-- Settles O48: reset is the engine built from the empty image. -/
theorem resetMeetsInv : Obligations.ResetMeetsInv :=
  builtEngineMeetsInv Config.hardware [] (by decide) (by decide)

/-- Settles O50: a busy engine is Runnable and its step is total; an idle one waits for its host. -/
theorem onlyIdlenessStops : Obligations.OnlyIdlenessStops := by
  intro s h
  cases hbusy : s.busy with
  | true =>
    obtain ⟨t, ht⟩ := State.engineStep_total s
    exact .inl ⟨t, (step_eq_engineStep ⟨h.busyRunnable hbusy, hbusy⟩).trans ht⟩
  | false =>
    rw [step_eq_hostStep hbusy]
    unfold State.hostStep
    cases s.hostTodo with
    | nil => exact .inr ⟨rfl, rfl, rfl⟩
    | cons cmd rest => exact .inl ⟨_, rfl⟩

end Sys2Proof.Machine

/-! What each instruction does when it completes, and its frame (20_memory.md, 40_arithmetic.md to 44_halt_illegal.md):
first the access primitives, then one rule per shared pseudocode, cited for each instruction that has it. -/

namespace Sys2Proof.Machine

variable {s t : State}

/-! ### The access primitives -/

theorem check_addressInRange_eq {α : Type} (s : State) (a : Int) (x y : α) :
    (if s.addressInRange a = true then x else y) = if a < 0 ∨ (s.memLen : Int) ≤ a then y else x := by
  have hiff : s.addressInRange a = true ↔ ¬(a < 0 ∨ (s.memLen : Int) ≤ a) := by
    rw [State.addressInRange_iff, ← not_not (a := s.isCell a), ← State.outside_iff]
  simp only [hiff, ite_not]

/-- Settles O7: both reads make the same range check, each with its own cause. -/
theorem readsCheckRange : Obligations.ReadsCheckRange := fun s a =>
  ⟨check_addressInRange_eq s a _ _, check_addressInRange_eq s a _ _⟩

/-- Settles O8: a write outside memory raises, one inside is `setCell`. -/
theorem writeThenRead : Obligations.WriteThenRead := by
  refine fun s a v hwf => ⟨fun hout => State.memWrite_eq_error_iff.mpr ⟨hout, rfl⟩, fun ha => ?_⟩
  exact ⟨s.setCell a.toNat v, State.memWrite_eq_ok_iff.mpr ⟨ha, rfl⟩, State.cell_setCell_same hwf a.toNat v,
    fun b => State.cell_setCell_other s v, rfl, Memory.wf_write hwf (State.toNat_lt_of_isCell ha)⟩

/-- Settles O9: digits 0 and 1 name the two modes, and of the rest the policy decides. -/
theorem resolveByMode : Obligations.ResolveByMode := by
  refine fun s p d => ⟨rfl, rfl, fun h2 _ => ?_⟩
  obtain ⟨k, rfl⟩ := Nat.exists_eq_add_of_le' h2
  simp only [Mode.ofDigit, State.resolve]
  cases s.cfg.unknownMode <;> rfl

/-! ### Storing and advancing -/

/-- The cell a store names holds the word, the others are as before. -/
theorem State.storesAndAdvances (s : State) (dst r : Int) (n : Nat) :
    s.StoresAndAdvances ((s.setCell dst.toNat r).advance n) dst r n :=
  ⟨rfl, fun hwf => State.cell_setCell_same hwf dst.toNat r, fun _ => State.cell_setCell_other s r⟩

theorem State.cell_setCell_of_ne {dst : Int} (hdst : s.isCell dst) (r : Int) {x : Nat} (hx : (x : Int) ≠ dst) :
    (s.setCell dst.toNat r).cell x = s.cell x := by
  refine State.cell_setCell_other s r ?_
  rintro rfl
  exact hx (Int.toNat_of_nonneg hdst.1)

/-! ### The F3 instructions -/

/-- R80, R81, R110, R111: an F3 instruction whose operands are readable, whose computation has a result and whose target
is in memory stores that result. -/
theorem State.commit_alu_completes {m1 m2 : Mode} {a b dst v1 v2 r : Int} {f : Int → Int → Except Cause Int}
    (h1 : s.readsAs m1 a v1) (h2 : s.readsAs m2 b v2) (hdst : s.isCell dst) (hf : f v1 v2 = .ok r) :
    ∃ t, s.commit (s.alu m1 m2 a b dst f) = .next t ∧ s.StoresAndAdvances t dst r 4 := by
  have hok := State.alu_eq_ok_iff.mpr ⟨v1, v2, r, h1, h2, hf, hdst, rfl⟩
  exact ⟨_, State.commit_eq_next_iff.mpr (.inl hok), s.storesAndAdvances dst r 4⟩

theorem truthWord_decide (p : Prop) [Decidable p] : truthWord (decide p) = if p then 1 else 0 := by
  simp only [truthWord, decide_eq_true_eq]

/-- Settles O10: `add` is an F3 instruction whose result is the sum, if that is a word. -/
theorem addWritesExactSum : Obligations.AddWritesExactSum := fun _ _ _ _ _ _ _ _ h1 h2 hrange hdst =>
  State.commit_alu_completes h1 h2 hdst (checkRange_eq_ok_iff.mpr ⟨hrange, rfl⟩)

/-- Settles O11: `mul` likewise, with the product. -/
theorem mulWritesExactProduct : Obligations.MulWritesExactProduct := fun _ _ _ _ _ _ _ _ h1 h2 hrange hdst =>
  State.commit_alu_completes h1 h2 hdst (checkRange_eq_ok_iff.mpr ⟨hrange, rfl⟩)

/-- Settles O12: `less-than` has the result 1 or 0 for all operands. -/
theorem lessThanWritesTruth : Obligations.LessThanWritesTruth := fun _ _ _ _ _ _ v1 v2 h1 h2 hdst =>
  State.commit_alu_completes h1 h2 hdst (congrArg Except.ok (truthWord_decide (v1 < v2)))

/-- Settles O13: `equals` has the result 1 or 0 for all operands. -/
theorem equalsWritesTruth : Obligations.EqualsWritesTruth := fun _ _ _ _ _ _ v1 v2 h1 h2 hdst =>
  State.commit_alu_completes h1 h2 hdst (congrArg Except.ok (truthWord_decide (v1 = v2)))

/-- R178: the computation's own fault comes before the target's, whatever the target. -/
theorem State.commit_alu_raises {m1 m2 : Mode} {a b v1 v2 : Int} {f : Int → Int → Except Cause Int} {c : Cause}
    (h1 : s.readsAs m1 a v1) (h2 : s.readsAs m2 b v2) (hf : f v1 v2 = .error c) (dst : Int) :
    s.commit (s.alu m1 m2 a b dst f) = .next (s.raise c) :=
  State.commit_eq_next_iff.mpr
    (.inr ⟨c, State.alu_eq_error_iff.mpr (.inr ⟨v1, v2, h1, h2, .inl hf⟩), rfl⟩)

/-- Settles O14: the range check is the computation's own fault. -/
theorem arithmeticOverflowFaults : Obligations.ArithmeticOverflowFaults := fun _ _ _ _ _ dst _ _ h1 h2 =>
  ⟨fun hrange => State.commit_alu_raises h1 h2 (checkRange_eq_error_iff.mpr ⟨hrange, rfl⟩) dst,
    fun hrange => State.commit_alu_raises h1 h2 (checkRange_eq_error_iff.mpr ⟨hrange, rfl⟩) dst⟩

/-- The frame of the F3 instructions, whatever they compute. -/
theorem State.commit_alu_frame {m1 m2 : Mode} {a b dst : Int} {f : Int → Int → Except Cause Int}
    (h : s.commit (s.alu m1 m2 a b dst f) = .next t) :
    (∀ x : Nat, (x : Int) ≠ dst → t.cell x = s.cell x) ∧ t.memLen = s.memLen ∧ t.inq = s.inq ∧ t.outq = s.outq ∧
      t.cfg = s.cfg ∧ t.hostTodo = s.hostTodo ∧ t.hostReplies = s.hostReplies ∧
      ((t.state = s.state ∧ t.cause = s.cause ∧ t.busy = s.busy) ∨
        (t.state = .faulted ∧ t.busy = false ∧ t.mem = s.mem ∧ t.pc = s.pc)) := by
  obtain ⟨r, -, -, -, hdst, rfl⟩ | ⟨c, -, rfl⟩ := State.commit_alu_cases h
  · exact ⟨fun x => State.cell_setCell_of_ne hdst r, rfl, rfl, rfl, rfl, rfl, rfl, .inl ⟨rfl, rfl, rfl⟩⟩
  · exact ⟨fun _ _ => rfl, rfl, rfl, rfl, rfl, rfl, rfl, .inr ⟨rfl, rfl, rfl, rfl⟩⟩

/-- Settles O16: the four instructions share their frame with their pseudocode. -/
theorem aluFrame : Obligations.AluFrame := by
  intro s t m1 m2 a b dst i hi h
  obtain rfl | rfl | rfl | rfl := hi
  · exact State.commit_alu_frame h
  · exact State.commit_alu_frame h
  · exact State.commit_alu_frame h
  · exact State.commit_alu_frame h

/-! ### What an instruction that does not fault stores -/

theorem State.commit_alu_stores {m1 m2 : Mode} {a b dst r : Int} {f : Int → Int → Except Cause Int}
    (hf : ∀ x, f (s.operandValue m1 a) (s.operandValue m2 b) = .ok x → x = r) (ht : t.Safe)
    (h : s.commit (s.alu m1 m2 a b dst f) = .next t) : s.isCell dst ∧ t.mem = s.mem.write dst.toNat r := by
  obtain ⟨x, hx, -, -, hdst, rfl⟩ | ⟨c, -, rfl⟩ := State.commit_alu_cases h
  · obtain rfl := hf x hx
    exact ⟨hdst, rfl⟩
  · exact absurd rfl ht

theorem State.commit_jump_mem {m1 m2 : Mode} {a b : Int} {taken : Int → Bool}
    (h : s.commit (s.jump m1 m2 a b taken) = .next t) : t.mem = s.mem := by
  obtain ⟨-, -, ⟨-, -, rfl⟩ | ⟨-, rfl⟩⟩ | ⟨c, -, rfl⟩ := State.commit_jump_cases h <;> rfl

theorem execOutput_mem {m1 : Mode} {a : Int} (h : execOutput m1 a s = .next t) : t.mem = s.mem := by
  obtain ⟨v, -, -, rfl⟩ | ⟨c, -, rfl⟩ | ⟨v, -, -, rfl⟩ := execOutput_cases h <;> rfl

theorem checkRange_ok_unique {cfg : Config} {r x : Int} (h : checkRange cfg r = .ok x) : x = r :=
  (checkRange_eq_ok_iff.mp h).2

theorem truthWord_ok_unique {p : Prop} [Decidable p] {x : Int}
    (h : (.ok (truthWord (decide p)) : Except Cause Int) = .ok x) : x = if p then 1 else 0 := by
  rw [← truthWord_decide]
  exact (Except.ok.inj h).symm

/-- Settles O36: the F3 instructions by their result, `input` by the head of the queue, the others without a store. -/
theorem instructionStoresExactly : Obligations.InstructionStoresExactly := by
  intro s t i hs h ht
  cases i with
  | add m1 m2 a b dst => exact State.commit_alu_stores (fun _ => checkRange_ok_unique) ht h
  | mul m1 m2 a b dst => exact State.commit_alu_stores (fun _ => checkRange_ok_unique) ht h
  | lessThan m1 m2 a b dst => exact State.commit_alu_stores (fun _ => truthWord_ok_unique) ht h
  | equals m1 m2 a b dst => exact State.commit_alu_stores (fun _ => truthWord_ok_unique) ht h
  | input dst =>
    obtain ⟨-, rfl⟩ | ⟨-, hq, rfl⟩ | ⟨v, q, hdst, hq, rfl⟩ := execInput_cases h
    · exact absurd rfl ht
    · simp [State.storeOf, hq]
    · simp [State.storeOf, hq, hdst]
  | output m1 a => exact execOutput_mem h
  | jumpIfTrue m1 m2 cond target => exact State.commit_jump_mem h
  | jumpIfFalse m1 m2 cond target => exact State.commit_jump_mem h
  | halt => cases h; rfl
  | illegal w => cases h; rfl

/-- Settles O15: what is stored depends on the modes through the operands' values alone. -/
theorem modeIndependence : Obligations.ModeIndependence := fun s t _ _ _ _ _ _ _ hs ht =>
  ⟨fun h => (instructionStoresExactly s t _ hs h ht).2, fun h => (instructionStoresExactly s t _ hs h ht).2,
    fun h => (instructionStoresExactly s t _ hs h ht).2, fun h => (instructionStoresExactly s t _ hs h ht).2⟩

/-! ### `input` -/

theorem exec_input_of_not_isCell {dst : Int} (hdst : ¬s.isCell dst) :
    exec (.input dst) s = .next (s.raise .writeOob) := by
  simp only [exec, execInput, State.checkTarget_eq_error_iff.mpr ⟨hdst, rfl⟩, State.commit]

theorem exec_input_of_nil {dst : Int} (hdst : s.isCell dst) (hq : s.inq = []) :
    exec (.input dst) s = .next s.suspend := by
  simp only [exec, execInput, State.checkTarget_eq_ok_iff.mpr hdst, State.takeInput, hq, State.commit]

theorem exec_input_of_cons {dst v : Int} {q : List Word} (hdst : s.isCell dst) (hq : s.inq = v :: q) :
    exec (.input dst) s = .next ((State.setCell { s with inq := q } dst.toNat v).advance 2) := by
  have hwrite : State.memWrite { s with inq := q } dst v = .ok (State.setCell { s with inq := q } dst.toNat v) :=
    State.memWrite_eq_ok_iff.mpr ⟨hdst, rfl⟩
  simp only [exec, execInput, State.checkTarget_eq_ok_iff.mpr hdst, State.takeInput, hq, hwrite, State.commit]

/-- Settles O17: the head of the queue is stored, the tail is kept. -/
theorem inputTakesOldest : Obligations.InputTakesOldest := fun s dst v q hdst hq =>
  ⟨_, exec_input_of_cons hdst hq, State.storesAndAdvances { s with inq := q } dst v 2⟩

/-- Settles O18: an empty queue suspends. -/
theorem inputSuspendsOnEmptyQueue : Obligations.InputSuspendsOnEmptyQueue := fun _ _ hdst hq =>
  exec_input_of_nil hdst hq

/-- Settles O19: the target is tested before the queue. -/
theorem inputBadTargetFaults : Obligations.InputBadTargetFaults := fun s dst hout =>
  exec_input_of_not_isCell ((s.outside_iff dst).mp hout)

/-- Settles O20: one row of the frame for each way `input` ends. -/
theorem inputFrame : Obligations.InputFrame := by
  intro s t dst h
  obtain ⟨-, rfl⟩ | ⟨-, -, rfl⟩ | ⟨v, q, hdst, hq, rfl⟩ := execInput_cases h
  · exact ⟨fun _ _ => rfl, rfl, rfl, rfl, rfl, rfl, .inr (.inr ⟨rfl, rfl, rfl, rfl, rfl⟩)⟩
  · exact ⟨fun _ _ => rfl, rfl, rfl, rfl, rfl, rfl, .inr (.inl ⟨rfl, rfl, rfl, rfl, rfl, rfl⟩)⟩
  · exact ⟨fun x => State.cell_setCell_of_ne (s := { s with inq := q }) hdst v, rfl, rfl, rfl, rfl, rfl,
      .inl ⟨rfl, rfl, rfl, v, hq⟩⟩

/-- R155: `resume` restarts a Suspended engine with the queue it has by then. -/
theorem State.command_resume_of_suspended (hs : s.state = .suspended) (hidle : s.busy = false) :
    s.command .resume = ({ s with state := .runnable, busy := true }, .done) := by
  rw [State.command_of_accepts (State.accepts_iff.mpr ⟨hidle, rfl⟩), State.hostEffect, State.resumeRun_eq,
    if_pos (.inl hs)]
  rfl

/-- Settles O23: the step suspends, the two commands take the engine back to the `input` with the value queued, and the
next step takes it. -/
theorem suspendResumeRoundTrip : Obligations.SuspendResumeRoundTrip := by
  intro s dst v hr hf hdst hq hv hfits
  have hsuspends : step s = .next s.suspend := (step_eq_exec hr hf).trans (exec_input_of_nil hdst hq)
  have hadd : s.suspend.command (.addInput v) = ({ s with inq := [v], state := .suspended, busy := false }, .done) := by
    have haccepts : s.suspend.accepts (.addInput v) = true :=
      State.accepts_addInput_iff.mpr ⟨rfl, hv, by simpa [hq] using hfits⟩
    rw [State.command_of_accepts haccepts, State.hostEffect, State.suspend_inq, hq]
    rfl
  have hresume : State.command { s with inq := [v], state := .suspended, busy := false } .resume =
      ({ s with inq := [v] }, .done) :=
    (State.command_resume_of_suspended rfl rfl).trans (by rw [hr.1, hr.2])
  have hfetch : State.fetchInstr { s with inq := [v] } = .ok (.input dst) :=
    (State.fetchInstr_congr (s := { s with inq := [v] }) (t := s) rfl rfl rfl).trans hf
  have htakes : step { s with inq := [v] } = .next ((State.setCell { s with inq := [] } dst.toNat v).advance 2) :=
    (step_eq_exec (s := { s with inq := [v] }) hr hfetch).trans (exec_input_of_cons hdst rfl)
  refine ⟨s.suspend, { s with inq := [v], state := .suspended, busy := false },
    (State.setCell { s with inq := [] } dst.toNat v).advance 2, hsuspends, rfl, rfl, hadd, rfl, rfl, ?_⟩
  rw [hresume]
  exact ⟨rfl, hr, htakes, hr, rfl, rfl, rfl⟩

/-! ### `output` -/

/-- Settles O21: a readable operand and room leave `output` nothing to fail on. -/
theorem outputAppends : Obligations.OutputAppends := by
  intro s m1 a v1 hv hroom
  simp only [exec, execOutput, State.resolve_eq_ok_iff.mpr hv, State.pushOutput_eq_ok_iff.mpr ⟨hroom, rfl⟩,
    State.commit, State.advance]

/-- Settles O22: `output` appends, or faults on its operand or a full FIFO. -/
theorem outputFrame : Obligations.OutputFrame := by
  intro s t m1 a h
  obtain ⟨v, -, -, rfl⟩ | ⟨c, -, rfl⟩ | ⟨v, -, -, rfl⟩ := execOutput_cases h
  · exact ⟨fun _ => rfl, rfl, rfl, rfl, rfl, rfl, rfl, .inl ⟨rfl, rfl, rfl, v, rfl⟩⟩
  · exact ⟨fun _ => rfl, rfl, rfl, rfl, rfl, rfl, rfl, .inr ⟨rfl, rfl, rfl, rfl⟩⟩
  · exact ⟨fun _ => rfl, rfl, rfl, rfl, rfl, rfl, rfl, .inr ⟨rfl, rfl, rfl, rfl⟩⟩

/-! ### The jumps -/

/-- Settles O24: taken on a non-zero condition. -/
theorem jumpIfTrueTwoWay : Obligations.JumpIfTrueTwoWay := fun _ _ _ _ _ _ _ h1 h2 =>
  ⟨fun hv1 hv2 => State.commit_jump_taken h1 h2 (decide_eq_true hv1) hv2,
    fun hv1 => State.commit_jump_not_taken h1 h2 (decide_eq_false (not_not.mpr hv1))⟩

/-- Settles O25: taken on a zero condition. -/
theorem jumpIfFalseTwoWay : Obligations.JumpIfFalseTwoWay := fun _ _ _ _ _ _ _ h1 h2 =>
  ⟨fun hv1 hv2 => State.commit_jump_taken h1 h2 (decide_eq_true hv1) hv2,
    fun hv1 => State.commit_jump_not_taken h1 h2 (decide_eq_false hv1)⟩

theorem State.commit_jump_frame {m1 m2 : Mode} {a b : Int} {taken : Int → Bool}
    (h : s.commit (s.jump m1 m2 a b taken) = .next t) :
    t = { s with pc := t.pc } ∨ ∃ c, c ≠ .none ∧ t = s.faultedWith c := by
  obtain ⟨-, -, ⟨-, -, rfl⟩ | ⟨-, rfl⟩⟩ | ⟨c, hc, rfl⟩ := State.commit_jump_cases h
  · exact .inl rfl
  · exact .inl rfl
  · refine .inr ⟨c, ?_, rfl⟩
    obtain rfl | rfl | rfl := State.jump_cause hc <;> nofun

/-- Settles O27: the two jumps share their frame with their pseudocode. -/
theorem jumpFrame : Obligations.JumpFrame := by
  intro s t m1 m2 cond target i hi h
  obtain rfl | rfl := hi
  · exact ⟨fun x => congrArg (·.read x) (State.commit_jump_mem h), State.commit_jump_frame h⟩
  · exact ⟨fun x => congrArg (·.read x) (State.commit_jump_mem h), State.commit_jump_frame h⟩

/-! ### `halt` and `illegal` -/

/-- R120: a word with opcode 99 takes no parameter cell. -/
theorem decode_of_opcode_halt {w : Int} (hw : 0 ≤ w) (hop : w.toNat % 100 = 99) (ps : List Word) :
    decode (w :: ps) = .ok (.halt, ps) :=
  decode_of_assemble (ps := []) ((decodeWord_eq_some_iff w .halt _ _).mpr ⟨hw, hop, rfl, rfl⟩) rfl ps

theorem step_of_opcode_halt (hr : s.Running) (hpc : s.pc < s.memLen) (hw : 0 ≤ s.cell s.pc)
    (hop : s.opcodeAtPc = 99) : step s = .next s.halt := by
  have hd : decode (s.mem.slice s.pc 1) = .ok (.halt, []) := decode_of_opcode_halt hw hop []
  exact step_eq_exec hr (State.fetchInstr_eq_ok hpc hd)

/-- Settles O28: the decoder, the meaning, and the step that has fetched the one cell. -/
theorem haltStops : Obligations.HaltStops :=
  ⟨fun _ ps hw hop => decode_of_opcode_halt hw hop ps, fun _ => rfl, fun _ => step_of_opcode_halt⟩

/-- Settles O29: the meaning of `illegal` looks at nothing. -/
theorem illegalTakesFault : Obligations.IllegalTakesFault := fun _ _ => rfl

end Sys2Proof.Machine

/-! A step (45_execution_loop.md R130, 20_memory.md R54, 60_exceptions.md R173, 10_state.md R25): its outcomes, what it
can change by the opcode at `pc`, its causes, the next fetch after a store, and that `cause` has no influence. -/

namespace Sys2Proof

/-! ### The opcode and the parameters behind an instruction -/

/-- The operation of R68 an instruction performs; `illegal` performs none. -/
def Instr.operation : Instr → Option Opcode
  | .add _ _ _ _ _ => some .add | .mul _ _ _ _ _ => some .mul | .input _ => some .input | .output _ _ => some .output
  | .jumpIfTrue _ _ _ _ => some .jumpIfTrue | .jumpIfFalse _ _ _ _ => some .jumpIfFalse
  | .lessThan _ _ _ _ _ => some .lessThan | .equals _ _ _ _ _ => some .equals | .halt => some .halt
  | .illegal _ => none

theorem operation_of_assemble {op : Opcode} {m1 m2 : Mode} {ps : List Word} {i : Instr}
    (h : assemble op m1 m2 ps = some i) : i.operation = some op := by
  unfold assemble at h
  split at h <;> cases h <;> rfl

/-- R61, R64: the word an instruction is decoded from has its opcode, and its parameters are the cells that follow. -/
theorem opcode_and_params_of_decode {w : Int} {ps rest : List Word} {i : Instr} {op : Opcode}
    (h : decode (w :: ps) = .ok (i, rest)) (hop : i.operation = some op) :
    w.toNat % 100 = op.value ∧ (encode i).tail = ps.take op.nparams := by
  obtain ⟨-, rfl, -⟩ | ⟨op', d1, d2, hw, ha, -⟩ := decode_cases h
  · cases hop
  · obtain rfl : op' = op := Option.some.inj ((operation_of_assemble ha).symm.trans hop)
    obtain ⟨n1, n2, hencode, -⟩ := encode_of_assemble ha
    obtain ⟨-, hvalue, -⟩ := (decodeWord_eq_some_iff _ _ _ _).mp hw
    exact ⟨hvalue, by rw [hencode, List.tail_cons]⟩

end Sys2Proof

namespace Sys2Proof.Machine

variable {s t : State} {i : Instr}

theorem State.opcode_and_params_of_fetchInstr {op : Opcode} (hf : s.fetchInstr = .ok i) (hop : i.operation = some op) :
    s.opcodeAtPc = op.value ∧
      (encode i).tail = [s.cell (s.pc + 1), s.cell (s.pc + 2), s.cell (s.pc + 3)].take op.nparams := by
  obtain ⟨-, rest, hd⟩ := State.fetchInstr_decode hf
  exact opcode_and_params_of_decode hd hop

/-! ### The instruction and the outcome of a step -/

/-- Settles O30: the cells that decode are the cells that are fetched. -/
theorem stepRunsDecodedInstruction : Obligations.StepRunsDecodedInstruction := fun _ _ _ _ hr hlen hd =>
  step_eq_exec hr (State.fetchInstr_eq_ok hlen hd)

/-- Settles O32: the four ends of an instruction, and the fault of a fetch. -/
theorem runningStepHasFourOutcomes : Obligations.RunningStepHasFourOutcomes := by
  intro s hr
  obtain ⟨t, hstep⟩ := State.engineStep_total s
  refine ⟨t, (step_eq_engineStep hr).trans hstep, ?_⟩
  obtain ⟨-, rfl⟩ | ⟨i, -, hi⟩ := State.engineStep_cases hstep
  · exact .inr (.inr (.inr ⟨.fetchOob, nofun, rfl⟩))
  · obtain ht | ⟨rfl, -⟩ | ⟨rfl, -⟩ | ⟨c, hc, rfl⟩ := exec_cases hi
    · rw [ht]
      exact .inl ⟨hr, rfl⟩
    · exact .inr (.inl rfl)
    · exact .inr (.inr (.inl rfl))
    · exact .inr (.inr (.inr ⟨c, hc, rfl⟩))

/-- Settles O35: the rows of R173. -/
theorem causesByInstruction : Obligations.CausesByInstruction := fun _ _ _ hs h ht => canRaise_of_exec hs h ht

/-! ### What a step changes -/

theorem exec_cfg (h : exec i s = .next t) : t.cfg = s.cfg := by
  obtain ht | ⟨rfl, -⟩ | ⟨rfl, -⟩ | ⟨c, -, rfl⟩ := exec_cases h
  · rw [ht]
  · exact State.halt_cfg s
  · exact State.suspend_cfg s
  · exact State.raise_cfg s c

theorem State.engineStep_cfg (h : s.engineStep = .next t) : t.cfg = s.cfg := by
  obtain ⟨-, rfl⟩ | ⟨i, -, hi⟩ := State.engineStep_cases h
  · exact State.raise_cfg s _
  · exact exec_cfg hi

theorem State.commit_alu_queues {m1 m2 : Mode} {a b dst : Int} {f : Int → Int → Except Cause Int}
    (h : s.commit (s.alu m1 m2 a b dst f) = .next t) : t.inq = s.inq ∧ t.outq = s.outq := by
  obtain ⟨-, -, hinq, houtq, -⟩ := State.commit_alu_frame h
  exact ⟨hinq, houtq⟩

theorem State.commit_jump_queues {m1 m2 : Mode} {a b : Int} {taken : Int → Bool}
    (h : s.commit (s.jump m1 m2 a b taken) = .next t) : t.inq = s.inq ∧ t.outq = s.outq := by
  obtain ht | ⟨c, -, rfl⟩ := State.commit_jump_frame h
  · rw [ht]; exact ⟨rfl, rfl⟩
  · exact ⟨rfl, rfl⟩

/-- R160: only `input` takes from `inq`, and only its head; only `output` adds to `outq`, one value at the end. -/
theorem exec_queues (h : exec i s = .next t) :
    (t.inq = s.inq ∧ t.outq = s.outq) ∨
      (t.outq = s.outq ∧ i.operation = some .input ∧ ∃ v, s.inq = v :: t.inq) ∨
      (t.inq = s.inq ∧ i.operation = some .output ∧ ∃ v, t.outq = s.outq ++ [v]) := by
  cases i with
  | add m1 m2 a b dst => exact .inl (State.commit_alu_queues h)
  | mul m1 m2 a b dst => exact .inl (State.commit_alu_queues h)
  | lessThan m1 m2 a b dst => exact .inl (State.commit_alu_queues h)
  | equals m1 m2 a b dst => exact .inl (State.commit_alu_queues h)
  | jumpIfTrue m1 m2 cond target => exact .inl (State.commit_jump_queues h)
  | jumpIfFalse m1 m2 cond target => exact .inl (State.commit_jump_queues h)
  | input dst =>
    obtain ⟨-, rfl⟩ | ⟨-, -, rfl⟩ | ⟨v, q, -, hq, rfl⟩ := execInput_cases h
    · exact .inl ⟨rfl, rfl⟩
    · exact .inl ⟨rfl, rfl⟩
    · exact .inr (.inl ⟨rfl, rfl, v, hq⟩)
  | output m1 a =>
    obtain ⟨v, -, -, rfl⟩ | ⟨c, -, rfl⟩ | ⟨v, -, -, rfl⟩ := execOutput_cases h
    · exact .inr (.inr ⟨rfl, rfl, v, rfl⟩)
    · exact .inl ⟨rfl, rfl⟩
    · exact .inl ⟨rfl, rfl⟩
  | halt => cases h; exact .inl ⟨rfl, rfl⟩
  | illegal w => cases h; exact .inl ⟨rfl, rfl⟩

/-- `exec_queues` for the step, by the opcode at `pc`. -/
theorem State.engineStep_queues (h : s.engineStep = .next t) :
    (t.inq = s.inq ∧ t.outq = s.outq) ∨ (t.outq = s.outq ∧ s.opcodeAtPc = 3 ∧ ∃ v, s.inq = v :: t.inq) ∨
      (t.inq = s.inq ∧ s.opcodeAtPc = 4 ∧ ∃ v, t.outq = s.outq ++ [v]) := by
  obtain ⟨-, rfl⟩ | ⟨i, hf, hi⟩ := State.engineStep_cases h
  · exact .inl ⟨rfl, rfl⟩
  · obtain hsame | ⟨houtq, hop, hinq⟩ | ⟨hinq, hop, houtq⟩ := exec_queues hi
    · exact .inl hsame
    · exact .inr (.inl ⟨houtq, (State.opcode_and_params_of_fetchInstr hf hop).1, hinq⟩)
    · exact .inr (.inr ⟨hinq, (State.opcode_and_params_of_fetchInstr hf hop).1, houtq⟩)

/-- An instruction with three parameters that leaves every cell but its third parameter's alone. -/
theorem State.changed_cell_of_f3 {op : Opcode} {a b dst : Int} {x : Nat} (hf : s.fetchInstr = .ok i)
    (hop : i.operation = some op) (hvalue : op.value ∈ [1, 2, 7, 8]) (hparams : (encode i).tail = [a, b, dst])
    (hframe : ∀ x : Nat, (x : Int) ≠ dst → t.cell x = s.cell x) (hx : t.cell x ≠ s.cell x) :
    s.opcodeAtPc ∈ [1, 2, 7, 8] ∧ (x : Int) = s.cell (s.pc + 3) := by
  obtain ⟨hopcode, hcells⟩ := State.opcode_and_params_of_fetchInstr hf hop
  have hnparams : op.nparams = 3 := by rw [Opcode.nparams_eq, if_pos hvalue]
  have hdst : dst = s.cell (s.pc + 3) := by
    rw [hparams, hnparams] at hcells
    simp only [List.take_succ_cons, List.cons.injEq] at hcells
    exact hcells.2.2.1
  have hxdst : (x : Int) = dst := Decidable.byContradiction fun hne => hx (hframe x hne)
  exact ⟨hopcode ▸ hvalue, hxdst.trans hdst⟩

/-- R42, R57: the cell a step changes is the one the write-target parameter names. -/
theorem State.engineStep_changed_cell {x : Nat} (h : s.engineStep = .next t) (hx : t.cell x ≠ s.cell x) :
    (s.opcodeAtPc ∈ [1, 2, 7, 8] ∧ (x : Int) = s.cell (s.pc + 3)) ∨
      (s.opcodeAtPc = 3 ∧ (x : Int) = s.cell (s.pc + 1)) := by
  have unchanged : t.mem ≠ s.mem := fun hmem => hx (congrArg (·.read x) hmem)
  obtain ⟨-, rfl⟩ | ⟨i, hf, hi⟩ := State.engineStep_cases h
  · exact absurd rfl hx
  · cases i with
    | add m1 m2 a b dst => exact .inl (State.changed_cell_of_f3 hf rfl (by decide) rfl (State.commit_alu_frame hi).1 hx)
    | mul m1 m2 a b dst => exact .inl (State.changed_cell_of_f3 hf rfl (by decide) rfl (State.commit_alu_frame hi).1 hx)
    | lessThan m1 m2 a b dst =>
      exact .inl (State.changed_cell_of_f3 hf rfl (by decide) rfl (State.commit_alu_frame hi).1 hx)
    | equals m1 m2 a b dst =>
      exact .inl (State.changed_cell_of_f3 hf rfl (by decide) rfl (State.commit_alu_frame hi).1 hx)
    | input dst =>
      obtain ⟨hopcode, hcells⟩ := State.opcode_and_params_of_fetchInstr hf rfl
      have hdst : dst = s.cell (s.pc + 1) := List.head_eq_of_cons_eq hcells
      have hxdst : (x : Int) = dst := Decidable.byContradiction fun hne => hx ((inputFrame s t dst hi).1 x hne)
      exact .inr ⟨hopcode, hxdst.trans hdst⟩
    | output m1 a => exact absurd (execOutput_mem hi) unchanged
    | jumpIfTrue m1 m2 cond target => exact absurd (State.commit_jump_mem hi) unchanged
    | jumpIfFalse m1 m2 cond target => exact absurd (State.commit_jump_mem hi) unchanged
    | halt => cases hi; exact absurd rfl hx
    | illegal w => cases hi; exact absurd rfl hx

/-- Settles O33: the cells, the queues, the ends of a run, and what no step touches. -/
theorem stepChangesByOpcode : Obligations.StepChangesByOpcode := by
  intro s t hr h
  rw [step_eq_engineStep hr] at h
  have hqueues := State.engineStep_queues h
  have hstate := State.engineStep_transition hr.1 h
  refine ⟨fun x => State.engineStep_changed_cell h, fun hne => ?_, fun hne => ?_, fun hhalted => ?_,
    fun hsuspended => ?_, State.engineStep_memLen h, State.engineStep_cfg h, State.engineStep_hostAgent h⟩
  · obtain ⟨hinq, -⟩ | ⟨-, hinput⟩ | ⟨hinq, -⟩ := hqueues
    · exact absurd hinq hne
    · exact hinput
    · exact absurd hinq hne
  · obtain ⟨-, houtq⟩ | ⟨houtq, -⟩ | ⟨-, houtput⟩ := hqueues
    · exact absurd houtq hne
    · exact absurd houtq hne
    · exact houtput
  · obtain hgo | ⟨-, -, -, hop⟩ | ⟨hend, -⟩ | ⟨hend, -⟩ := hstate
    · cases hgo.symm.trans hhalted
    · exact hop
    · cases hend.symm.trans hhalted
    · cases hend.symm.trans hhalted
  · obtain hgo | ⟨hend, -⟩ | ⟨-, ⟨-, -, hop, -⟩, -⟩ | ⟨hend, -⟩ := hstate
    · cases hgo.symm.trans hsuspended
    · cases hend.symm.trans hsuspended
    · exact hop
    · cases hend.symm.trans hsuspended

/-! ### A store and the next fetch -/

/-- Settles O37: the stored word is in its cell, and the next step reads that cell if `pc` is there. -/
theorem storeSeenByNextFetch : Obligations.StoreSeenByNextFetch := by
  intro s t i dst r hwf hr h htr hstore
  have hexact := instructionStoresExactly s t i hr.safe h htr.safe
  rw [hstore] at hexact
  obtain ⟨hdst, hmem⟩ := hexact
  have hdst' : t.isCell dst := by rwa [State.isCell, exec_memLen h]
  have hcell : t.cell dst.toNat = r := by rw [State.cell, hmem, Memory.read_write_same hwf]
  have hpc : dst = (t.pc : Int) → t.pc < t.memLen ∧ t.cell t.pc = r := by
    rintro rfl
    exact ⟨State.toNat_lt_of_isCell hdst', hcell⟩
  refine ⟨State.fetch_eq_ok_iff.mpr ⟨hdst', hcell.symm⟩, fun hat hillegal => ?_, fun hat hnonneg hop => ?_⟩
  · obtain ⟨hlt, rfl⟩ := hpc hat
    exact step_of_isIllegalWord htr hlt hillegal
  · obtain ⟨hlt, rfl⟩ := hpc hat
    exact step_of_opcode_halt htr hlt hnonneg hop

/-! ### Causes that unbounded words and queues never raise -/

/-- R25: only a fault records a cause. -/
theorem exec_cause_of_safe (h : exec i s = .next t) (ht : t.Safe) : t.cause = s.cause := by
  obtain hend | ⟨rfl, -⟩ | ⟨rfl, -⟩ | ⟨c, -, rfl⟩ := exec_cases h
  · rw [hend]
  · exact State.halt_cause s
  · exact State.suspend_cause s
  · exact absurd rfl ht

theorem State.engineStep_cause_of_safe (h : s.engineStep = .next t) (ht : t.Safe) : t.cause = s.cause := by
  obtain ⟨-, rfl⟩ | ⟨i, -, hi⟩ := State.engineStep_cases h
  · exact absurd rfl ht
  · exact exec_cause_of_safe hi ht

/-- R6: with unbounded words every result is in range, so the F3 instructions have no cause of their own. -/
theorem State.commit_alu_checkRange_cause_ne_overflow {m1 m2 : Mode} {a b dst : Int} {g : Int → Int → Int}
    (hwidth : s.cfg.width = none) (hs : s.Safe)
    (h : s.commit (s.alu m1 m2 a b dst fun v1 v2 => checkRange s.cfg (g v1 v2)) = .next t)
    (ht : t.state = .faulted) : t.cause ≠ .overflow := by
  have hnever : ∀ v1 v2 c, checkRange s.cfg (g v1 v2) = .error c → c ∈ ([] : List Cause) := fun v1 v2 c hc => by
    cases (Config.inRange_of_width_eq_none hwidth _).symm.trans (checkRange_eq_error_iff.mp hc).1
  have hcause := State.commit_alu_cause hnever hs h ht
  intro hoverflow
  simp [hoverflow] at hcause

theorem exec_cause_ne_overflow (hwidth : s.cfg.width = none) (hs : s.Safe) (h : exec i s = .next t)
    (ht : t.state = .faulted) : t.cause ≠ .overflow := by
  have hrow : canRaise i .overflow = false → t.cause ≠ .overflow := fun hfalse hc => by
    cases hfalse.symm.trans (hc ▸ canRaise_of_exec hs h ht)
  cases i with
  | add m1 m2 a b dst => exact State.commit_alu_checkRange_cause_ne_overflow (g := (· + ·)) hwidth hs h ht
  | mul m1 m2 a b dst => exact State.commit_alu_checkRange_cause_ne_overflow (g := (· * ·)) hwidth hs h ht
  | _ => exact hrow rfl

theorem exec_cause_ne_outputFull (hdepth : s.cfg.outDepth = none) (hs : s.Safe) (h : exec i s = .next t)
    (ht : t.state = .faulted) : t.cause ≠ .outputFull := by
  have hrow : canRaise i .outputFull = false → t.cause ≠ .outputFull := fun hfalse hc => by
    cases hfalse.symm.trans (hc ▸ canRaise_of_exec hs h ht)
  cases i with
  | output m1 a =>
    obtain ⟨v, -, -, rfl⟩ | ⟨c, hc, rfl⟩ | ⟨v, -, hfull, rfl⟩ := execOutput_cases h
    · exact absurd ht hs
    · obtain rfl | rfl := State.operandTests_cause hc <;> nofun
    · have hroom : s.cfg.outFits (s.outq.length + 1) = true := by rw [Config.outFits, hdepth, withinBound]
      cases hroom.symm.trans hfull
  | _ => exact hrow rfl

/-- Settles O45: a step that does not fault keeps the cause NONE, and one that faults has a cause of its row. -/
theorem unboundedInstanceNeverFills : Obligations.UnboundedInstanceNeverFills := by
  intro s t hr hnone h
  rw [step_eq_engineStep hr] at h
  obtain ⟨-, rfl⟩ | ⟨i, -, hi⟩ := State.engineStep_cases h
  · exact ⟨fun _ => nofun, fun _ => nofun⟩
  · by_cases ht : t.state = .faulted
    · exact ⟨fun hwidth => exec_cause_ne_overflow hwidth hr.safe hi ht,
        fun hdepth => exec_cause_ne_outputFull hdepth hr.safe hi ht⟩
    · rw [exec_cause_of_safe hi ht, hnone]
      exact ⟨fun _ => nofun, fun _ => nofun⟩

/-! ### `cause` has no influence -/

/-- The state with another `cause`. -/
def State.withCause (s : State) (c : Cause) : State := { s with cause := c }

/-- Two results of an instruction's pseudocode that are alike but for the cause of the state they reach. -/
def AlikeButCause (c : Cause) (r r' : Except Cause State) : Prop := r' = r.map fun t => t.withCause c

theorem State.resolve_withCause (s : State) (c : Cause) (p : Int) (m : Mode) :
    (s.withCause c).resolve p m = s.resolve p m := by
  cases m <;> rfl

theorem State.resolve2_withCause (s : State) (c : Cause) (p1 p2 : Int) (m1 m2 : Mode) :
    (s.withCause c).resolve2 p1 p2 m1 m2 = s.resolve2 p1 p2 m1 m2 := by
  simp only [State.resolve2, State.resolve_withCause]

theorem State.memWrite_withCause (s : State) (c : Cause) (a v : Int) :
    AlikeButCause c (s.memWrite a v) ((s.withCause c).memWrite a v) := by
  have hcheck : (s.withCause c).checkTarget a = s.checkTarget a := rfl
  unfold AlikeButCause State.memWrite
  rw [hcheck]
  cases s.checkTarget a <;> rfl

theorem State.alu_withCause (s : State) (c : Cause) (m1 m2 : Mode) (a b dst : Int) (f : Int → Int → Except Cause Int) :
    AlikeButCause c (s.alu m1 m2 a b dst f) ((s.withCause c).alu m1 m2 a b dst f) := by
  unfold AlikeButCause State.alu
  rw [State.resolve2_withCause]
  cases s.resolve2 a b m1 m2 with
  | error e => rfl
  | ok v =>
    cases hf : f v.1 v.2 with
    | error e => simp only [hf]; rfl
    | ok r =>
      have hwrite := s.memWrite_withCause c dst r
      unfold AlikeButCause at hwrite
      simp only [hf, hwrite]
      cases s.memWrite dst r <;> rfl

theorem State.jump_withCause (s : State) (c : Cause) (m1 m2 : Mode) (a b : Int) (taken : Int → Bool) :
    AlikeButCause c (s.jump m1 m2 a b taken) ((s.withCause c).jump m1 m2 a b taken) := by
  unfold AlikeButCause State.jump
  rw [State.resolve2_withCause]
  cases s.resolve2 a b m1 m2 with
  | error e => rfl
  | ok v =>
    cases ht : taken v.1 with
    | false => simp only [ht]; rfl
    | true =>
      simp only [ht]
      cases checkJumpTarget v.2 <;> rfl

theorem State.pushOutput_withCause (s : State) (c : Cause) (v : Int) :
    AlikeButCause c (s.pushOutput v) ((s.withCause c).pushOutput v) := by
  have hroom : (s.withCause c).cfg.outFits ((s.withCause c).outq.length + 1) = s.cfg.outFits (s.outq.length + 1) := rfl
  unfold AlikeButCause State.pushOutput
  rw [hroom]
  split <;> rfl

/-- No instruction's pseudocode looks at `cause`. -/
theorem exec_commits_alikeButCause (i : Instr) (s : State) (c : Cause) :
    ∃ r r', AlikeButCause c r r' ∧ exec i s = s.commit r ∧ exec i (s.withCause c) = (s.withCause c).commit r' := by
  cases i with
  | add m1 m2 a b dst => exact ⟨_, _, s.alu_withCause c m1 m2 a b dst _, rfl, rfl⟩
  | mul m1 m2 a b dst => exact ⟨_, _, s.alu_withCause c m1 m2 a b dst _, rfl, rfl⟩
  | lessThan m1 m2 a b dst => exact ⟨_, _, s.alu_withCause c m1 m2 a b dst _, rfl, rfl⟩
  | equals m1 m2 a b dst => exact ⟨_, _, s.alu_withCause c m1 m2 a b dst _, rfl, rfl⟩
  | jumpIfTrue m1 m2 cond target => exact ⟨_, _, s.jump_withCause c m1 m2 cond target _, rfl, rfl⟩
  | jumpIfFalse m1 m2 cond target => exact ⟨_, _, s.jump_withCause c m1 m2 cond target _, rfl, rfl⟩
  | input dst =>
    by_cases hdst : s.isCell dst
    · cases hq : s.inq with
      | nil => exact ⟨.ok _, .ok _, rfl, exec_input_of_nil hdst hq, exec_input_of_nil hdst hq⟩
      | cons v q => exact ⟨.ok _, .ok _, rfl, exec_input_of_cons hdst hq, exec_input_of_cons hdst hq⟩
    · exact ⟨.error _, .error _, rfl, exec_input_of_not_isCell hdst, exec_input_of_not_isCell hdst⟩
  | output m1 a =>
    refine ⟨_, _, ?_, rfl, rfl⟩
    rw [State.resolve_withCause]
    cases s.resolve a m1 with
    | error e => rfl
    | ok v =>
      have hpush := s.pushOutput_withCause c v
      unfold AlikeButCause at hpush ⊢
      simp only [hpush]
      cases s.pushOutput v <;> rfl
  | halt => exact ⟨.ok _, .ok _, rfl, rfl, rfl⟩
  | illegal w => exact ⟨.error _, .error _, rfl, rfl, rfl⟩

/-- An instruction's end in a state with another cause: the same, but for the cause. -/
theorem exec_withCause (h : exec i s = .next t) (c : Cause) : ∃ e, exec i (s.withCause c) = .next (t.withCause e) := by
  obtain ⟨r, r', halike, hr, hr'⟩ := exec_commits_alikeButCause i s c
  unfold AlikeButCause at halike
  subst halike
  rw [hr] at h
  obtain rfl | ⟨e, rfl, rfl⟩ := State.commit_eq_next_iff.mp h
  · exact ⟨c, hr'⟩
  · exact ⟨e, hr'⟩

theorem State.engineStep_withCause (h : s.engineStep = .next t) (c : Cause) :
    ∃ e, (s.withCause c).engineStep = .next (t.withCause e) := by
  have hfetch : (s.withCause c).fetchInstr = s.fetchInstr := State.fetchInstr_congr rfl rfl rfl
  rw [State.engineStep, hfetch]
  obtain ⟨hf, rfl⟩ | ⟨i, hf, hi⟩ := State.engineStep_cases h
  · exact ⟨.fetchOob, by rw [hf]; rfl⟩
  · simpa only [hf] using exec_withCause hi c

theorem State.accepts_withCause (s : State) (c : Cause) (cmd : HostCommand) :
    (s.withCause c).accepts cmd = s.accepts cmd := by
  cases cmd <;> rfl

theorem State.hostEffect_withCause (s : State) (c : Cause) (cmd : HostCommand) :
    ∃ e, (s.withCause c).hostEffect cmd = (s.hostEffect cmd).withCause e := by
  cases cmd with
  | construct image => exact ⟨.none, rfl⟩
  | resetMemory image => exact ⟨.none, rfl⟩
  | run =>
    refine ⟨c, ?_⟩
    have hstate : (s.withCause c).state = s.state := rfl
    simp only [State.hostEffect, State.startRun_eq, hstate]
    split <;> rfl
  | resume =>
    refine ⟨c, ?_⟩
    have hstate : (s.withCause c).state = s.state := rfl
    simp only [State.hostEffect, State.resumeRun_eq, hstate]
    split <;> rfl
  | _ => exact ⟨c, rfl⟩

/-- R158: `fault_cause` is the one command whose answer depends on `cause`. -/
theorem State.hostAnswer_withCause (s : State) (c : Cause) {cmd : HostCommand} (hcmd : cmd ≠ .faultCause) :
    (s.withCause c).hostAnswer cmd = s.hostAnswer cmd := by
  cases cmd with
  | faultCause => exact absurd rfl hcmd
  | _ => rfl

theorem State.command_withCause (s : State) (c : Cause) (cmd : HostCommand) :
    (∃ e, ((s.withCause c).command cmd).1 = (s.command cmd).1.withCause e) ∧
      (cmd ≠ .faultCause → ((s.withCause c).command cmd).2 = (s.command cmd).2) := by
  unfold State.command
  rw [State.accepts_withCause]
  split
  · exact ⟨s.hostEffect_withCause c cmd, s.hostAnswer_withCause c⟩
  · exact ⟨⟨c, rfl⟩, fun _ => rfl⟩

/-! ### A step without the engine -/

/-- R161: the step of an idle engine is its host's next command. -/
theorem step_of_idle {cmd : HostCommand} {rest : List HostCommand} (hidle : s.busy = false)
    (htodo : s.hostTodo = cmd :: rest) :
    step s = .next { (State.command { s with hostTodo := rest } cmd).1 with
      hostReplies := (State.command { s with hostTodo := rest } cmd).1.hostReplies
        ++ [(State.command { s with hostTodo := rest } cmd).2] } := by
  rw [step_eq_hostStep hidle, State.hostStep, htodo]

theorem step_of_no_command (hidle : s.busy = false) (htodo : s.hostTodo = []) : step s = .fault .noMove := by
  rw [step_eq_hostStep hidle, State.hostStep, htodo]

theorem step_of_not_runnable (hbusy : s.busy = true) (hs : s.state ≠ .runnable) : step s = .fault .stepUndefined := by
  rw [step, hbusy]
  cases hstate : s.state with
  | runnable => exact absurd hstate hs
  | _ => rfl

/-- The model's stops do not depend on `cause`. -/
theorem step_fault_withCause {r : Fault} (h : step s = .fault r) (c : Cause) : step (s.withCause c) = .fault r := by
  cases hbusy : s.busy with
  | true =>
    by_cases hs : s.state = .runnable
    · obtain ⟨t, ht⟩ := State.engineStep_total s
      cases ((step_eq_engineStep ⟨hs, hbusy⟩).trans ht).symm.trans h
    · exact (step_of_not_runnable (s := s.withCause c) hbusy hs).trans ((step_of_not_runnable hbusy hs).symm.trans h)
  | false =>
    cases htodo : s.hostTodo with
    | nil =>
      exact (step_of_no_command (s := s.withCause c) hbusy htodo).trans ((step_of_no_command hbusy htodo).symm.trans h)
    | cons cmd rest => cases (step_of_idle hbusy htodo).symm.trans h

/-- Settles O46: the engine's step by its instruction, the host's by its command, and the stops. -/
theorem causeNeverInfluences : Obligations.CauseNeverInfluences := by
  refine fun s c => ⟨fun t h => ?_, fun r h => step_fault_withCause h c⟩
  obtain ⟨hr, hengine⟩ | ⟨cmd, rest, hidle, htodo, rfl⟩ := step_cases h
  · obtain ⟨e, he⟩ := State.engineStep_withCause hengine c
    exact ⟨t.withCause e, (step_eq_engineStep (s := s.withCause c) hr).trans he, rfl, .inl rfl⟩
  · have hstep := step_of_idle (s := s.withCause c) hidle htodo
    obtain ⟨⟨e, he⟩, hreply⟩ := State.command_withCause { s with hostTodo := rest } c cmd
    unfold State.withCause at hstep he hreply
    rw [he] at hstep
    refine ⟨_, hstep, rfl, ?_⟩
    by_cases hcmd : cmd = .faultCause
    · exact .inr ⟨hidle, by rw [htodo, hcmd]; rfl⟩
    · rw [hreply hcmd]
      exact .inl rfl

end Sys2Proof.Machine

/-! Runs (45_execution_loop.md R132, R136; 60_exceptions.md R175; 00_scope.md R6; 30_encoding.md R66): what the loop
preserves, the machine's steps it is made of, and the same run under a looser configuration or with more input. -/

namespace Sys2Proof.Machine

variable {s t : State} {i : Instr}

/-! ### What a run preserves -/

/-- R136 between two states of a run. -/
def State.RunKeeps (s t : State) : Prop :=
  t.memLen = s.memLen ∧ t.cfg = s.cfg ∧ s.outq <+: t.outq ∧ t.inq <:+ s.inq ∧
    (s.cause = .none → t.state ≠ .faulted → t.cause = .none)

theorem State.RunKeeps.refl (s : State) : s.RunKeeps s :=
  ⟨rfl, rfl, List.prefix_refl _, List.suffix_refl _, fun hcause _ => hcause⟩

/-- A run that goes on from a state has not faulted in it. -/
theorem State.RunKeeps.trans {u : State} (hsu : s.RunKeeps u) (hu : u.Safe) (hut : u.RunKeeps t) : s.RunKeeps t := by
  obtain ⟨hlen, hcfg, houtq, hinq, hcause⟩ := hsu
  obtain ⟨hlen', hcfg', houtq', hinq', hcause'⟩ := hut
  exact ⟨hlen'.trans hlen, hcfg'.trans hcfg, houtq.trans houtq', hinq'.trans hinq,
    fun hnone ht => hcause' (hcause hnone hu) ht⟩

theorem State.engineStep_runKeeps (h : s.engineStep = .next t) : s.RunKeeps t := by
  have hqueues : s.outq <+: t.outq ∧ t.inq <:+ s.inq := by
    obtain ⟨hinq, houtq⟩ | ⟨houtq, -, v, hinq⟩ | ⟨hinq, -, v, houtq⟩ := State.engineStep_queues h
    · rw [hinq, houtq]; exact ⟨List.prefix_refl _, List.suffix_refl _⟩
    · rw [hinq, houtq]; exact ⟨List.prefix_refl _, List.suffix_cons v _⟩
    · rw [hinq, houtq]; exact ⟨List.prefix_append _ _, List.suffix_refl _⟩
  exact ⟨State.engineStep_memLen h, State.engineStep_cfg h, hqueues.1, hqueues.2,
    fun hnone ht => (State.engineStep_cause_of_safe h ht).trans hnone⟩

/-- Settles O40: by induction over the loop, which ends at once where it is not Runnable. -/
theorem runPreserves : Obligations.RunPreserves := by
  intro k
  induction k with
  | zero => exact fun s => ⟨s, rfl, State.RunKeeps.refl s⟩
  | succ k ih =>
    intro s
    by_cases hr : s.state = .runnable
    · obtain ⟨u, hu⟩ := State.engineStep_total s
      have hsu := State.engineStep_runKeeps hu
      rw [State.loop_running hr hu]
      by_cases hgo : u.state = .runnable
      · obtain ⟨t, ht, hut⟩ := ih u
        exact ⟨t, ht, hsu.trans (by simp [State.Safe, hgo]) hut⟩
      · exact ⟨u, State.loop_stopped hgo k, hsu⟩
    · exact ⟨s, State.loop_stopped hr _, State.RunKeeps.refl s⟩

/-! ### The steps of a run -/

/-- A step of a run leaves the engine running or not Runnable. -/
theorem State.Running.of_engineStep (hr : s.Running) (h : s.engineStep = .next t) (ht : t.state = .runnable) :
    t.Running := by
  obtain ⟨-, rfl⟩ | ⟨i, -, hi⟩ := State.engineStep_cases h
  · cases ht
  · obtain hend | ⟨rfl, -⟩ | ⟨rfl, -⟩ | ⟨c, -, rfl⟩ := exec_cases hi
    · rw [hend]; exact hr
    · cases ht
    · cases ht
    · cases ht

/-- Settles O41: by induction over the loop, one machine step for each of its steps. -/
theorem loopIsRepeatedSteps : Obligations.LoopIsRepeatedSteps := by
  intro k
  induction k with
  | zero => exact fun s _ => ⟨0, s, Nat.le_refl 0, rfl, rfl, fun h => absurd h (Nat.lt_irrefl 0)⟩
  | succ k ih =>
    intro s hr
    obtain ⟨u, hu⟩ := State.engineStep_total s
    have hstep : step s = .next u := (step_eq_engineStep hr).trans hu
    rw [State.loop_running hr.1 hu]
    by_cases hgo : u.state = .runnable
    · obtain ⟨j, t, hj, hloop, hrun, hend⟩ := ih u (hr.of_engineStep hu hgo)
      exact ⟨j + 1, t, Nat.succ_le_succ hj, hloop, (core_run_succ hstep j).trans hrun,
        fun h => hend (Nat.lt_of_succ_lt_succ h)⟩
    · exact ⟨1, u, Nat.succ_le_succ (Nat.zero_le k), State.loop_stopped hgo k, core_run_succ hstep 0, fun _ => hgo⟩

/-! ### The same run under a looser configuration or with more input -/

/-- What `c` lets an instruction do, `c'` lets it do as well: hold a word, find room in the output FIFO, read an operand
with an unknown mode. -/
structure Permits (c c' : Config) : Prop where
  inRange : ∀ w, c.inRange w = true → c'.inRange w = true
  outFits : ∀ n, c.outFits n = true → c'.outFits n = true
  lenient : c.unknownMode = .positional → c'.unknownMode = .positional

theorem Permits.refl (c : Config) : Permits c c := ⟨fun _ => id, fun _ => id, id⟩

/-- The state under another configuration, with more values queued behind its own. -/
def State.relaxed (s : State) (c : Config) (values : List Word) : State :=
  { s with cfg := c, inq := s.inq ++ values }

theorem State.relaxed_nil (s : State) (c : Config) : s.relaxed c [] = { s with cfg := c } := by
  rw [State.relaxed, List.append_nil]

variable {c : Config} {values : List Word}

theorem State.readsAs_relaxed (hp : Permits s.cfg c) {m : Mode} {p v : Int} (h : s.readsAs m p v) :
    (s.relaxed c values).readsAs m p v := by
  cases m with
  | immediate => exact h
  | positional => exact h
  | unknown d =>
    obtain ⟨hmode, hread⟩ := h
    exact ⟨hp.lenient hmode, hread⟩

theorem State.commit_alu_relaxed {m1 m2 : Mode} {a b dst : Int} {f f' : Int → Int → Except Cause Int}
    (hp : Permits s.cfg c) (hf : ∀ v1 v2 r, f v1 v2 = .ok r → f' v1 v2 = .ok r) (ht : t.Safe)
    (h : s.commit (s.alu m1 m2 a b dst f) = .next t) :
    (s.relaxed c values).commit ((s.relaxed c values).alu m1 m2 a b dst f') = .next (t.relaxed c values) := by
  obtain ⟨r, hr, h1, h2, hdst, rfl⟩ | ⟨e, -, rfl⟩ := State.commit_alu_cases h
  · have hok := State.alu_eq_ok_iff.mpr
      ⟨_, _, r, State.readsAs_relaxed (values := values) hp h1, State.readsAs_relaxed hp h2, hf _ _ r hr, hdst, rfl⟩
    exact State.commit_eq_next_iff.mpr (.inl hok)
  · exact absurd rfl ht

theorem State.commit_jump_relaxed {m1 m2 : Mode} {a b : Int} {taken : Int → Bool} (hp : Permits s.cfg c) (ht : t.Safe)
    (h : s.commit (s.jump m1 m2 a b taken) = .next t) :
    (s.relaxed c values).commit ((s.relaxed c values).jump m1 m2 a b taken) = .next (t.relaxed c values) := by
  obtain ⟨h1, h2, ⟨htaken, htarget, rfl⟩ | ⟨htaken, rfl⟩⟩ | ⟨e, -, rfl⟩ := State.commit_jump_cases h
  · exact State.commit_jump_taken (State.readsAs_relaxed hp h1) (State.readsAs_relaxed hp h2) htaken htarget
  · exact State.commit_jump_not_taken (State.readsAs_relaxed hp h1) (State.readsAs_relaxed hp h2) htaken
  · exact absurd rfl ht

theorem checkRange_ok_of_permits {c c' : Config} (hp : Permits c c') {v r : Int} (h : checkRange c v = .ok r) :
    checkRange c' v = .ok r := by
  obtain ⟨hrange, rfl⟩ := checkRange_eq_ok_iff.mp h
  exact checkRange_eq_ok_iff.mpr ⟨hp.inRange _ hrange, rfl⟩

/-- An instruction that does not fault does the same in the relaxed state, if it does not wait for input there is. -/
theorem exec_relaxed (hp : Permits s.cfg c) (h : exec i s = .next t) (ht : t.Safe)
    (hwait : t.state = .suspended → values = []) :
    exec i (s.relaxed c values) = .next (t.relaxed c values) := by
  cases i with
  | add m1 m2 a b dst => exact State.commit_alu_relaxed hp (fun _ _ _ => checkRange_ok_of_permits hp) ht h
  | mul m1 m2 a b dst => exact State.commit_alu_relaxed hp (fun _ _ _ => checkRange_ok_of_permits hp) ht h
  | lessThan m1 m2 a b dst => exact State.commit_alu_relaxed hp (fun _ _ _ hr => hr) ht h
  | equals m1 m2 a b dst => exact State.commit_alu_relaxed hp (fun _ _ _ hr => hr) ht h
  | jumpIfTrue m1 m2 cond target => exact State.commit_jump_relaxed hp ht h
  | jumpIfFalse m1 m2 cond target => exact State.commit_jump_relaxed hp ht h
  | input dst =>
    obtain ⟨-, rfl⟩ | ⟨hdst, hq, rfl⟩ | ⟨v, q, hdst, hq, rfl⟩ := execInput_cases h
    · exact absurd rfl ht
    · obtain rfl := hwait rfl
      exact exec_input_of_nil hdst (by rw [State.relaxed, hq]; rfl)
    · exact exec_input_of_cons hdst (by rw [State.relaxed, hq]; rfl)
  | output m1 a =>
    obtain ⟨v, hv, hroom, rfl⟩ | ⟨e, -, rfl⟩ | ⟨v, -, -, rfl⟩ := execOutput_cases h
    · exact outputAppends (s.relaxed c values) m1 a v (State.readsAs_relaxed hp hv) (hp.outFits _ hroom)
    · exact absurd rfl ht
    · exact absurd rfl ht
  | halt => cases h; rfl
  | illegal w => cases h; exact absurd rfl ht

theorem State.engineStep_relaxed (hp : Permits s.cfg c) (h : s.engineStep = .next t) (ht : t.Safe)
    (hwait : t.state = .suspended → values = []) :
    (s.relaxed c values).engineStep = .next (t.relaxed c values) := by
  obtain ⟨-, rfl⟩ | ⟨i, hf, hi⟩ := State.engineStep_cases h
  · exact absurd rfl ht
  · have hfetch : (s.relaxed c values).fetchInstr = s.fetchInstr := State.fetchInstr_congr rfl rfl rfl
    rw [State.engineStep, hfetch, hf]
    exact exec_relaxed hp hi ht hwait

/-- The loop only stops, and never leaves, a state that is not Runnable. -/
theorem State.loop_of_not_runnable (hs : s.state ≠ .runnable) {k : Nat} (h : s.loop k = .next t) : t = s := by
  cases (State.loop_stopped hs k).symm.trans h
  rfl

/-- R6, R66: a run that does not fault is the same run under a configuration that permits as much. -/
theorem State.loop_relaxed {k : Nat} (hp : Permits s.cfg c) (h : s.loop k = .next t) (ht : t.Safe) :
    (s.relaxed c []).loop k = .next (t.relaxed c []) := by
  induction k generalizing s with
  | zero => cases h; rfl
  | succ k ih =>
    by_cases hr : s.state = .runnable
    · obtain ⟨u, hu⟩ := State.engineStep_total s
      rw [State.loop_running hr hu] at h
      have hsafe : u.Safe := fun hfaulted => by
        obtain rfl := State.loop_of_not_runnable (by simp [hfaulted]) h
        exact ht hfaulted
      rw [State.loop_running (s := s.relaxed c []) hr (State.engineStep_relaxed hp hu hsafe fun _ => rfl)]
      exact ih (State.engineStep_cfg hu ▸ hp) h
    · obtain rfl := State.loop_of_not_runnable hr h
      exact State.loop_stopped (s := t.relaxed c []) hr _

/-- R6: the document-exact configuration holds every word and has room for every value. -/
theorem permits_documentExact {c : Config} (h : c.unknownMode = .fault) : Permits c Config.documentExact where
  inRange _ _ := rfl
  outFits _ _ := rfl
  lenient hmode := by cases h.symm.trans hmode

theorem permits_lenient (c : Config) : Permits c { c with unknownMode := .positional } where
  inRange _ hw := hw
  outFits _ hn := hn
  lenient _ := rfl

/-- Settles O43: the document-exact configuration permits what every normative one does. -/
theorem documentExactRefines : Obligations.DocumentExactRefines := fun k s t hmode h ht => by
  simpa only [State.relaxed_nil] using State.loop_relaxed (permits_documentExact hmode) h ht

/-- Settles O44: the lenient policy permits what the normative one does. -/
theorem lenientPolicyAgrees : Obligations.LenientPolicyAgrees := fun k s t _ h ht => by
  simpa only [State.relaxed_nil] using State.loop_relaxed (permits_lenient s.cfg) h ht

/-! ### The suspend is invisible -/

/-- A suspend leaves no trace but `state` and `busy`: fed and resumed, the engine is where it was, with that input. -/
theorem State.engineStep_suspended (hr : s.Running) (h : s.engineStep = .next t) (ht : t.state = .suspended) :
    { t with inq := values, state := .runnable, busy := true } = s.relaxed s.cfg values := by
  obtain ⟨-, rfl⟩ | ⟨i, -, hi⟩ := State.engineStep_cases h
  · cases ht
  · obtain hend | ⟨rfl, -⟩ | ⟨rfl, -, -, -, hq⟩ | ⟨e, -, rfl⟩ := exec_cases hi
    · rw [hend] at ht
      cases hr.1.symm.trans ht
    · cases ht
    · obtain ⟨hstate, hbusy⟩ := hr
      simp only [State.relaxed, State.suspend, hq, hstate, hbusy, List.nil_append]
    · cases ht

/-- A run with more input queued goes the way of the run that suspends, and then on as that one does once it is fed. -/
theorem State.loop_fed {k : Nat} (hr : s.Running) (h : s.loop k = .next t) (ht : t.state = .suspended) :
    ∃ j, ∀ k', (s.relaxed s.cfg values).loop (j + k') =
      State.loop k' { t with inq := values, state := .runnable, busy := true } := by
  induction k generalizing s with
  | zero => cases h; cases hr.1.symm.trans ht
  | succ k ih =>
    obtain ⟨u, hu⟩ := State.engineStep_total s
    rw [State.loop_running hr.1 hu] at h
    by_cases hgo : u.state = .runnable
    · obtain ⟨j, hj⟩ := ih (hr.of_engineStep hu hgo) h
      have hstep : (s.relaxed s.cfg values).engineStep = .next (u.relaxed s.cfg values) :=
        State.engineStep_relaxed (Permits.refl s.cfg) hu (by simp [State.Safe, hgo]) (by simp [hgo])
      refine ⟨j + 1, fun k' => ?_⟩
      rw [Nat.add_right_comm, State.loop_running (s := s.relaxed s.cfg values) hr.1 hstep, ← hj,
        State.engineStep_cfg hu]
    · obtain rfl := State.loop_of_not_runnable hgo h
      exact ⟨0, fun k' => by rw [Nat.zero_add, State.engineStep_suspended hr hu ht]⟩

theorem State.accepts_of_command_done {cmd : HostCommand} (h : (s.command cmd).2 = .done) : s.accepts cmd = true := by
  by_contra hrefused
  rw [State.command, if_neg hrefused] at h
  cases h

/-- R152, R155: a Suspended engine that is given its input and resumed is Runnable and busy with that input. -/
theorem State.setInputs_resume (ht : t.state = .suspended) (h : (t.command (.setInputs values)).2 = .done) :
    ((t.command (.setInputs values)).1.command .resume).1 =
      { t with inq := values, state := .runnable, busy := true } := by
  have haccepts := State.accepts_of_command_done h
  obtain ⟨hidle, -⟩ := State.accepts_iff.mp haccepts
  rw [State.command_of_accepts haccepts, State.hostEffect,
    State.command_resume_of_suspended (s := { t with inq := values }) ht hidle]

/-- Settles O42: the fed run reaches the suspended engine as it is after `resume`, and goes on as it does. -/
theorem suspendIsInvisible : Obligations.SuspendIsInvisible := by
  intro s t r values k k' hr h ht hdone hresumed
  rw [State.setInputs_resume ht hdone] at hresumed
  obtain ⟨j, hj⟩ := State.loop_fed (values := values) hr h ht
  exact ⟨j + k', (hj k').trans hresumed⟩

end Sys2Proof.Machine

/-! The host's loads and runs (46_host_interface.md R150, R154, R155, R157), an engine not yet built (R32, R200), and a
Halted engine (44_halt_illegal.md R122). -/

namespace Sys2Proof.Machine

variable {s t : State} {cmd : HostCommand}

/-! ### Loads -/

theorem State.accepts_construct_iff {image : List Word} : s.accepts (.construct image) = true ↔
    s.busy = false ∧ s.cfg.memFits image.length = true ∧ ∀ v ∈ image, s.cfg.inRange v = true := by
  rw [State.accepts_iff, State.argsAccepted, imageAccepted_iff]

theorem State.accepts_resetMemory_iff {image : List Word} : s.accepts (.resetMemory image) = true ↔
    s.busy = false ∧ s.cfg.memFits image.length = true ∧ ∀ v ∈ image, s.cfg.inRange v = true := by
  rw [State.accepts_iff, State.argsAccepted, imageAccepted_iff]

theorem State.command_of_refused (h : s.accepts cmd = false) : s.command cmd = (s, .refused) :=
  if_neg (Bool.eq_false_iff.mp h)

/-- R150: where no engine exists an accepted image builds one. -/
theorem hostMove_construct_of_accepted {c : Config} {image : List Word} (h : imageAccepted c image = true) :
    hostMove c none (.construct image) = (some (State.built c image), .done) :=
  if_pos h

/-- Settles O51: reset is the engine built from the empty image. -/
theorem resetIsEmptyConstruct : Obligations.ResetIsEmptyConstruct :=
  ⟨⟨.done, hostMove_construct_of_accepted (by decide)⟩, State.built_loaded Config.hardware [], rfl, rfl⟩

/-- Settles O52: `construct` on an engine, and where there is none. -/
theorem constructLoadsImage : Obligations.ConstructLoadsImage := by
  refine ⟨fun s image => ⟨State.accepts_construct_iff, fun haccepts => ?_, State.command_of_refused⟩,
    fun c image => ⟨fun hok => ?_, fun hbad => ?_⟩⟩
  · exact ⟨s.construct image, State.command_of_accepts haccepts, s.construct_loaded image, rfl, rfl, rfl⟩
  · exact ⟨State.built c image, hostMove_construct_of_accepted (imageAccepted_iff.mpr hok),
      State.built_loaded c image, rfl, rfl, rfl⟩
  · exact if_neg (mt imageAccepted_iff.mp hbad)

/-- Settles O53: `reset_memory` on an engine, and its refusal where there is none. -/
theorem resetMemoryKeepsInput : Obligations.ResetMemoryKeepsInput := by
  refine ⟨fun s image => ⟨State.accepts_resetMemory_iff, fun haccepts => ?_, State.command_of_refused⟩, fun _ _ => rfl⟩
  obtain ⟨hidle, -⟩ := State.accepts_iff.mp haccepts
  exact ⟨s.resetMemory image, State.command_of_accepts haccepts, s.resetMemory_loaded image, rfl, hidle, rfl⟩

/-- Settles O60: of the commands `construct` alone has an engine as its answer there. -/
theorem unconstructedAcceptsOnlyConstruct : Obligations.UnconstructedAcceptsOnlyConstruct := by
  intro c cmd hcmd
  cases cmd with
  | construct image => exact absurd rfl (hcmd image)
  | _ => rfl

/-! ### The host's step, `run` and `resume` -/

/-- No command's effect reaches the host agent or the configuration. -/
theorem State.hostEffect_hostAgent (s : State) (cmd : HostCommand) :
    (s.hostEffect cmd).hostTodo = s.hostTodo ∧ (s.hostEffect cmd).hostReplies = s.hostReplies ∧
      (s.hostEffect cmd).cfg = s.cfg := by
  cases cmd with
  | run => exact ⟨s.startRun_hostTodo, s.startRun_hostReplies, s.startRun_cfg⟩
  | resume => exact ⟨s.resumeRun_hostTodo, s.resumeRun_hostReplies, s.resumeRun_cfg⟩
  | _ => exact ⟨rfl, rfl, rfl⟩

theorem State.command_hostAgent (s : State) (cmd : HostCommand) :
    (s.command cmd).1.hostTodo = s.hostTodo ∧ (s.command cmd).1.hostReplies = s.hostReplies ∧
      (s.command cmd).1.cfg = s.cfg := by
  unfold State.command
  split
  · exact s.hostEffect_hostAgent cmd
  · exact ⟨rfl, rfl, rfl⟩

/-- Settles O55: the idle step, what a command leaves alone, and the two starts of a run. -/
theorem hostStepRunAndResume : Obligations.HostStepRunAndResume := by
  refine ⟨fun s cmd rest hidle htodo => ?_, State.command_hostAgent, fun s hidle => ⟨?_, ?_⟩⟩
  · obtain ⟨-, hreplies, -⟩ := State.command_hostAgent { s with hostTodo := rest } cmd
    rw [step_of_idle hidle htodo, hreplies]
  · rw [State.command_of_accepts (State.accepts_iff.mpr ⟨hidle, rfl⟩), State.hostEffect, State.startRun_eq]
    rfl
  · rw [State.command_of_accepts (State.accepts_iff.mpr ⟨hidle, rfl⟩), State.hostEffect, State.resumeRun_eq]
    simp only [or_comm, State.hostAnswer]

/-! ### A Halted engine -/

theorem State.startRun_of_halted (h : s.state = .halted) : s.startRun = s := by
  rw [State.startRun_eq, h, if_neg nofun]

theorem State.resumeRun_of_halted (h : s.state = .halted) : s.resumeRun = s := by
  rw [State.resumeRun_eq, h, if_neg (by decide)]

/-- R122: of the effects of commands the two loads alone take an engine out of Halted or touch its outputs. -/
theorem State.hostEffect_of_halted (h : s.state = .halted) (cmd : HostCommand) :
    ((s.hostEffect cmd).state = .halted ∧ (s.hostEffect cmd).outq = s.outq) ∨
      ∃ image, (cmd = .construct image ∨ cmd = .resetMemory image) ∧ (s.hostEffect cmd).state = .runnable := by
  cases cmd with
  | construct image => exact .inr ⟨image, .inl rfl, State.construct_state s image⟩
  | resetMemory image => exact .inr ⟨image, .inr rfl, State.resetMemory_state s image⟩
  | run => exact .inl ⟨(State.startRun_state s).trans h, State.startRun_outq s⟩
  | resume => exact .inl ⟨(congrArg State.state (State.resumeRun_of_halted h)).trans h, State.resumeRun_outq s⟩
  | _ => exact .inl ⟨h, rfl⟩

/-- A command leaves a Halted engine's `state` and outputs, unless it is a load that is accepted. -/
theorem State.command_of_halted (h : s.state = .halted) (cmd : HostCommand) :
    ((s.command cmd).1.state = .halted ∧ (s.command cmd).1.outq = s.outq) ∨
      ∃ image, (cmd = .construct image ∨ cmd = .resetMemory image) ∧ imageAccepted s.cfg image = true ∧
        (s.command cmd).1.state = .runnable := by
  unfold State.command
  split
  · next haccepts =>
    obtain hkeep | ⟨image, hload, hstate⟩ := State.hostEffect_of_halted h cmd
    · exact .inl hkeep
    · exact .inr ⟨image, hload, State.imageAccepted_of_accepts hload haccepts, hstate⟩
  · exact .inl ⟨h, rfl⟩

/-- Settles O59: the engine has no step in Halted, and of the host's commands only an accepted load leaves it. -/
theorem haltedIsTerminal : Obligations.HaltedIsTerminal := by
  refine fun s h => ⟨fun hidle => ⟨?_, ?_⟩, fun t hstep => ?_⟩
  · exact State.command_read hidle rfl (State.resumeRun_of_halted h)
  · exact State.command_read hidle rfl (State.startRun_of_halted h)
  · obtain ⟨⟨hrunnable, -⟩, -⟩ | ⟨cmd, rest, -, htodo, rfl⟩ := step_cases hstep
    · cases h.symm.trans hrunnable
    · obtain hkeep | ⟨image, hload, hends⟩ := State.command_of_halted (s := { s with hostTodo := rest }) h cmd
      · exact .inl hkeep
      · refine .inr ⟨image, rest, ?_, hends⟩
        obtain rfl | rfl := hload
        · exact .inl htodo
        · exact .inr htodo

end Sys2Proof.Machine
